-- ==== Sys2Proof/Word.lean ====
section
/-! DEFINITION. The one word width of the block: whole 8-bit bytes (spec/00_scope.md R5, R10). Every value is
unsigned; nothing is ever sign-extended (R10, R89). Indices, the cursor and every count are natural numbers:
the spec never lets one of them wrap (10_state.md R14, 92_eei_decisions.md D18). -/

namespace Sys2Proof

/-- A byte: an unsigned 8-bit value, bit 7 the most significant (R10). -/
abbrev Byte := BitVec 8

end Sys2Proof
end

