-- ==== Sys2Proof/Config.lean ====
section
/-! DEFINITION. What an implementation fixes when it is built (00_scope.md R6, R7: `BUF_CAP`, `TRANSPORT`) and
the free values: what the spec leaves unconstrained, as constants with no body. -/

namespace Sys2Proof

/-- `TRANSPORT` (R7): `serial` offers the bytes the reader sent; `altStub` is the explicitly unimplemented,
always-empty transport, so that no byte is ever offered. -/
inductive Transport where
  | serial
  | altStub
  deriving DecidableEq, Repr

/-- The two build-time parameters of the block (R6, R7). The bound `BUF_CAP >= 15` of R6 is carried as a proof, so
that a capacity the spec does not allow cannot be written down. They are arguments of the model: a state carries
its own parameters, no operation changes them (R111), and a statement about every state is one about every
`BUF_CAP >= 15` (92_eei_decisions.md D4). -/
structure Config where
  bufCap : Nat
  bufCap_ge : 15 ≤ bufCap
  transport : Transport
  deriving DecidableEq, Repr

/-- `CW = ceil(log2(BUF_CAP + 1))` (R8): the width of the cursor register. -/
def Config.cursorWidth (c : Config) : Nat := Nat.clog 2 (c.bufCap + 1)

/-- The parameters `State.reset` carries: `BUF_CAP = 16`, the value of every vector of 95_test_vectors.md that
depends on it, and the implemented transport. DESIGN CHOICE (log 2): the spec leaves both open. -/
def Config.vectors : Config where
  bufCap := 16
  bufCap_ge := by decide
  transport := .serial

/-- FREE VALUE (log 3). The byte that `buf[index]` holds after the `resetCount`-th reset as long as nothing has
written it (R109, 93_implementation_defined.md U3: any value). -/
opaque Config.unwrittenBuf (resetCount index : Nat) : Byte

/-- FREE VALUE (log 4). The byte that `FRAME[index]` holds after the `resetCount`-th reset until the first capture
(R109, 93_implementation_defined.md U4: any value, but stable). -/
opaque Config.unwrittenFrame (resetCount index : Nat) : Byte

/-- FREE VALUE (log 11). The byte the `k`-th pair of `raw` decodes to where one of its two characters is no hex
digit (R46, R88, 93_implementation_defined.md U1: not defined). -/
opaque Config.undefinedPair (raw : List Byte) (k : Nat) : Byte

end Sys2Proof
end

