-- ==== Sys2Proof/Syntax.lean ====
section
/-! DEFINITION. The operation set: one constructor per row of spec/opcode_table.json (30_encoding.md R43, R47, R48,
R54, R41, R49), and the items of a schedule that the decoder reads them from. "Instruction" is read as
00_scope.md R9 reads it: one of the block's operations. -/

namespace Sys2Proof

/-- One constructor per row of the opcode table, in the table's order. -/
inductive Instr where
  /-- `RXB.START`: the byte source offers 0x02. -/
  | rxbStart
  /-- `RXB.END`: the byte source offers 0x03. -/
  | rxbEnd
  /-- `RXB.HEX.0-7`: the byte `00110ddd`. -/
  | rxbHex07 (d : BitVec 3)
  /-- `RXB.HEX.8-9`: the byte `0011100d`. -/
  | rxbHex89 (d : BitVec 1)
  /-- `RXB.HEX.A`: the byte 0x41. -/
  | rxbHexA
  /-- `RXB.HEX.B-C`: the byte `0100001d`. -/
  | rxbHexBC (d : BitVec 1)
  /-- `RXB.HEX.D-E`: the byte `0100010d`. -/
  | rxbHexDE (d : BitVec 1)
  /-- `RXB.HEX.F`: the byte 0x46. -/
  | rxbHexF
  /-- `RXB.OTHER`: any byte that no earlier row matches. -/
  | rxbOther (b : Byte)
  /-- `RST`: the strobe vector `1xx`. The two ignored strobes are kept, with the byte that is offered and not taken. -/
  | rst (offer : Option Byte) (evalStrobe : Bool)
  /-- `IDLE`: the strobe vector `000`. -/
  | idle
  /-- `RXB`: the strobe vector `010` with `rx_data`. -/
  | rxb (data : Byte)
  /-- `EVAL`: the strobe vector `001`. -/
  | eval
  /-- `FEED1`: the strobe vector `011` with `rx_data`; RXB, then EVAL, in one step. -/
  | feed1 (data : Byte)
  /-- `XTR`: the extractor's outputs are read; no strobe selects it. -/
  | xtr
  /-- `FEED b1 .. bn`: the drain of what the byte source has available, then one EVAL. -/
  | feed (bytes : List Byte)
  /-- `STREAM b1 .. bn`: `FEED1 b1; ..; FEED1 bn`. -/
  | stream (bytes : List Byte)
  /-- `FRAME`: the 14-byte wire frame, a data format. -/
  | frame (raw : List Byte)
  /-- `PAIR`: the two-character hex pair, a data format; `h` is the character received first. -/
  | pair (h l : Byte)
  deriving DecidableEq, Repr

/-- The formats of the opcode table's rows (its column "format"; the two pseudo-operations apart). -/
inductive Format where
  | byte8
  | strobe3
  | extractor
  | pseudoFeed
  | pseudoStream
  | frame14
  | pair16
  deriving DecidableEq, Repr

/-- One item of the host's schedule: a row format and the bytes that go with it, first byte first. In a `strobe3`
item the first byte is `S = rst ++ rx_fire ++ eval` in bits 2..0 and the second is `rx_data` (log 16). -/
structure Item where
  format : Format
  bytes : List Byte
  deriving DecidableEq, Repr

end Sys2Proof
end

