-- ==== Sys2Proof/WellFormed.lean ====
section
/-! DEFINITION. Which terms of `Instr` stand for an operation of the spec: the default row `RXB.OTHER` is used only
for the 238 values that no earlier row matches (30_encoding.md R43), a wire frame has exactly 14 bytes (R41). Every
other operand may take every value of its type. The range test is written out here on its own, not through the
decoder's masks, so that the two can be proved to agree. -/

namespace Sys2Proof

/-- The 238 values of class OTHER (R43). -/
def isOtherByte (b : Byte) : Bool :=
  !(b == 0x02#8 || b == 0x03#8 || (0x30#8 ≤ b && b ≤ 0x39#8) || (0x41#8 ≤ b && b ≤ 0x46#8))

/-- The well-formed instructions. -/
def Instr.wellFormed : Instr → Bool
  | .rxbStart => true
  | .rxbEnd => true
  | .rxbHex07 _ => true
  | .rxbHex89 _ => true
  | .rxbHexA => true
  | .rxbHexBC _ => true
  | .rxbHexDE _ => true
  | .rxbHexF => true
  | .rxbOther b => isOtherByte b
  | .rst _ _ => true
  | .idle => true
  | .rxb _ => true
  | .eval => true
  | .feed1 _ => true
  | .xtr => true
  | .feed _ => true
  | .stream _ => true
  | .frame raw => raw.length == 14
  | .pair _ _ => true

end Sys2Proof
end

