-- ==== Sys2Proof/Decode.lean ====
section
/-! DEFINITION. The byte classes (30_encoding.md R43), the strobe vector (R48), the decoder of one schedule item
and the encoder. The block computes no instruction address: an item is what reaches its ports in one operation. -/

namespace Sys2Proof

/-- The START marker (R5). -/
def START : Byte := 0x02#8

/-- The END marker (R5). -/
def END : Byte := 0x03#8

/-- The length of a frame in bytes (R5). -/
def FRAME_LEN : Nat := 14

/-- The four classes of a byte value (R43). -/
inductive ByteClass where
  | start
  | endMarker
  | hex
  | other
  deriving DecidableEq, Repr

/-- One row of the BYTE8 part of the opcode table: a byte `b` matches when `b & mask = bits`. -/
structure ByteRow where
  mask : Byte
  bits : Byte
  cls : ByteClass
  deriving DecidableEq, Repr

/-- The BYTE8 rows of the opcode table in priority order, but for the default row (R43). -/
def byteRows : List ByteRow :=
  [ ⟨0xFF#8, 0x02#8, .start⟩,
    ⟨0xFF#8, 0x03#8, .endMarker⟩,
    ⟨0xF8#8, 0x30#8, .hex⟩,
    ⟨0xFE#8, 0x38#8, .hex⟩,
    ⟨0xFF#8, 0x41#8, .hex⟩,
    ⟨0xFE#8, 0x42#8, .hex⟩,
    ⟨0xFE#8, 0x44#8, .hex⟩,
    ⟨0xFF#8, 0x46#8, .hex⟩ ]

/-- A byte matches a row of the table. -/
def byteRowMatches (b : Byte) (r : ByteRow) : Bool := b &&& r.mask == r.bits

/-- The class of a byte value: the first row that matches, and OTHER where none does (R43). -/
def byteClass (b : Byte) : ByteClass :=
  match byteRows.find? (byteRowMatches b) with
  | some r => r.cls
  | none => .other

/-- The BYTE8 row a byte selects, with the digit bits `d` it carries; the first match wins (R43). -/
def decodeByte (b : Byte) : Instr :=
  if b = START then .rxbStart
  else if b = END then .rxbEnd
  else if b.extractLsb' 3 5 = 0b00110#5 then .rxbHex07 (b.extractLsb' 0 3)
  else if b.extractLsb' 1 7 = 0b0011100#7 then .rxbHex89 (b.extractLsb' 0 1)
  else if b = 0x41#8 then .rxbHexA
  else if b.extractLsb' 1 7 = 0b0100001#7 then .rxbHexBC (b.extractLsb' 0 1)
  else if b.extractLsb' 1 7 = 0b0100010#7 then .rxbHexDE (b.extractLsb' 0 1)
  else if b = 0x46#8 then .rxbHexF
  else .rxbOther b

/-- The operation that a strobe vector `S = rst ++ rx_fire ++ eval` selects, with `rx_data` (R48). With `rst = 1`
the other two strobes are ignored; a byte offered then is not taken (R109). -/
def decodeStrobes (rst rxFire evalStrobe : Bool) (rxData : Byte) : Instr :=
  match rst, rxFire, evalStrobe with
  | true, true, ev => .rst (some rxData) ev
  | true, false, ev => .rst none ev
  | false, false, false => .idle
  | false, true, false => .rxb rxData
  | false, false, true => .eval
  | false, true, true => .feed1 rxData

/-- Why an item is no operation. -/
inductive DecodeError where
  /-- The format does not have this many bytes. -/
  | wrongLength (f : Format) (length : Nat)
  /-- The first byte of a STROBE3 item is no 3-bit vector. -/
  | notAStrobeVector (b : Byte)
  deriving DecidableEq, Repr

/-- The decoder: total on every item, and every rejection has a name. No byte value and no strobe vector is
rejected (R50, R48): only an item whose bytes do not fit its format is. -/
def decode (it : Item) : Except DecodeError Instr :=
  match it.format with
  | .byte8 =>
    match it.bytes with
    | [b] => .ok (decodeByte b)
    | bs => .error (.wrongLength .byte8 bs.length)
  | .strobe3 =>
    match it.bytes with
    | [s, d] =>
      if s.toNat < 8 then .ok (decodeStrobes (s.getLsbD 2) (s.getLsbD 1) (s.getLsbD 0) d)
      else .error (.notAStrobeVector s)
    | bs => .error (.wrongLength .strobe3 bs.length)
  | .extractor =>
    match it.bytes with
    | [] => .ok .xtr
    | bs => .error (.wrongLength .extractor bs.length)
  | .pseudoFeed => .ok (.feed it.bytes)
  | .pseudoStream => .ok (.stream it.bytes)
  | .frame14 =>
    if it.bytes.length = FRAME_LEN then .ok (.frame it.bytes)
    else .error (.wrongLength .frame14 it.bytes.length)
  | .pair16 =>
    match it.bytes with
    | [h, l] => .ok (.pair h l)
    | bs => .error (.wrongLength .pair16 bs.length)

/-- The strobe byte of `S = rst ++ rx_fire ++ eval` (R48). -/
def strobeByte (rst rxFire evalStrobe : Bool) : Byte :=
  (0#5 ++ BitVec.ofBool rst ++ BitVec.ofBool rxFire ++ BitVec.ofBool evalStrobe).setWidth 8

/-- The encoder: the item of an instruction, from the opcode table's patterns. -/
def encode : Instr → Item
  | .rxbStart => ⟨.byte8, [0x02#8]⟩
  | .rxbEnd => ⟨.byte8, [0x03#8]⟩
  | .rxbHex07 d => ⟨.byte8, [0x30#8 ||| d.setWidth 8]⟩
  | .rxbHex89 d => ⟨.byte8, [0x38#8 ||| d.setWidth 8]⟩
  | .rxbHexA => ⟨.byte8, [0x41#8]⟩
  | .rxbHexBC d => ⟨.byte8, [0x42#8 ||| d.setWidth 8]⟩
  | .rxbHexDE d => ⟨.byte8, [0x44#8 ||| d.setWidth 8]⟩
  | .rxbHexF => ⟨.byte8, [0x46#8]⟩
  | .rxbOther b => ⟨.byte8, [b]⟩
  | .rst (some b) ev => ⟨.strobe3, [strobeByte true true ev, b]⟩
  | .rst none ev => ⟨.strobe3, [strobeByte true false ev, 0#8]⟩
  | .idle => ⟨.strobe3, [strobeByte false false false, 0#8]⟩
  | .rxb b => ⟨.strobe3, [strobeByte false true false, b]⟩
  | .eval => ⟨.strobe3, [strobeByte false false true, 0#8]⟩
  | .feed1 b => ⟨.strobe3, [strobeByte false true true, b]⟩
  | .xtr => ⟨.extractor, []⟩
  | .feed bs => ⟨.pseudoFeed, bs⟩
  | .stream bs => ⟨.pseudoStream, bs⟩
  | .frame raw => ⟨.frame14, raw⟩
  | .pair h l => ⟨.pair16, [h, l]⟩

/-- The first `n` bytes of the number `w`, the least significant first. DESIGN CHOICE (log 24): the spec gives the rows
PAIR and FRAME no numeric form, and in a table word the byte received first stands in the least significant place; the
port `frame` of 10_state.md R28 has it in the most significant. -/
def bytesOfNat : Nat → Nat → List Byte
  | 0, _ => []
  | n + 1, w => BitVec.ofNat 8 w :: bytesOfNat n (w / 256)

/-- The item a table word stands for. The opcode table gives its rows to several formats, and a word alone does not
say which: it is read by its width (112 bits a wire frame, 16 a pair, 3 a strobe vector, none the extractor). In 8
bits both the BYTE8 and the STROBE3 rows stand; a byte that a specific BYTE8 row claims is that byte, of the rest the
values 0 to 7 are strobe vectors (DESIGN CHOICE, log 14). A PAIR or FRAME word carries its first received byte in bits
7 to 0 (DESIGN CHOICE, log 24). A strobe word carries no `rx_data`: where its vector offers a byte, that byte is 0x00
(DESIGN CHOICE, log 25). The spec has no word of any other width: one of 9 to 15 bits is read as the BYTE8 row of its low
8 bits, every other one is no operation, and bits of `w` above the width are dropped (DESIGN CHOICE, log 14). -/
def tableItem (nbits w : Nat) : Item :=
  if nbits = 0 then ⟨.extractor, []⟩
  else if nbits = 3 then ⟨.strobe3, [BitVec.ofNat 8 (w % 8), 0#8]⟩
  else if nbits = 8 then
    match byteClass (BitVec.ofNat 8 w) with
    | .other => if w % 256 < 8 then ⟨.strobe3, [BitVec.ofNat 8 w, 0#8]⟩ else ⟨.byte8, [BitVec.ofNat 8 w]⟩
    | _ => ⟨.byte8, [BitVec.ofNat 8 w]⟩
  else if nbits = 16 then ⟨.pair16, bytesOfNat 2 w⟩
  else if nbits = 112 then ⟨.frame14, bytesOfNat 14 w⟩
  else ⟨.byte8, bytesOfNat (nbits / 8) w⟩

/-- The instruction the decoder reads from a table word. -/
def decodeTableWord (nbits w : Nat) : Option Instr :=
  match decode (tableItem nbits w) with
  | .ok i => some i
  | .error _ => none

end Sys2Proof
end

