-- ==== Sys2Proof/Machine/State.lean ====
section
/-! DEFINITION. The state of the machine. `Block` is the block's whole state, exactly the five items of
10_state.md R13. The other fields of `State` are no state of the block (R24): the build-time parameters, the
environment the block meets at its interfaces (bytes the byte source holds, the host's schedule, the results the
host has got back) and the counter that names the free values (logs 1, 5). Every field is plain data. -/

namespace Sys2Proof.Machine

/-- A space of bytes by index, the buffer index space or the frame index space (20_memory.md R30): the cells that
have been written since the last reset, indices strictly rising (`Memory.wf`). An index that is not listed has no
value of its own (R109); what a read of it gives is said once, in `Block.bufByte` and `Block.frameByte`. -/
abbrev Memory := List Host.Cell

/-- The result codes of an EVAL (60_exceptions.md R94). -/
inductive FrameResult where
  | incomplete
  | valid
  | malformed
  | overrun
  deriving DecidableEq, Repr

/-- A CardId: exactly five bytes, `CARD[0]` to `CARD[4]` (10_state.md R20). -/
structure CardId where
  c0 : Byte
  c1 : Byte
  c2 : Byte
  c3 : Byte
  c4 : Byte
  deriving DecidableEq, Repr

/-- What the extractor outputs: `OK` with the CardId, the checksum and the sixth pair, or `XERR` with no data at all
(42_extract.md R86, R87). -/
inductive ExtractResult where
  | ok (card : CardId) (csum p6 : Byte)
  | xerr
  deriving DecidableEq, Repr

/-- What an operation returns to the host (60_exceptions.md R93: results are values). -/
inductive Result where
  /-- `RES` of an EVAL. -/
  | frameResult (r : FrameResult)
  /-- The extractor's outputs, read by an XTR. -/
  | extraction (x : ExtractResult)
  /-- The judgement of a wire frame as a data format (R41, R68). -/
  | wireFrame (ok : Bool)
  /-- The byte a hex pair stands for (R49). -/
  | pairValue (v : Byte)
  deriving DecidableEq, Repr

/-- The state of the block: exactly five items (10_state.md R13). -/
structure Block where
  /-- `cursor`, 0 to `BUF_CAP`, held in `CW` bits (R14). -/
  cursor : Nat
  /-- `in_frame`, one bit (R15). -/
  inFrame : Bool
  /-- `buf`, `BUF_CAP` bytes (R16). -/
  buf : Memory
  /-- `FRAME`, 14 bytes (R17). -/
  frame : Memory
  /-- `FVALID`, one bit (R18). -/
  fvalid : Bool
  deriving DecidableEq, Repr

/-- The machine: the block and what it is connected to. -/
structure State where
  /-- The five state items of the block (R13). -/
  block : Block
  /-- `BUF_CAP` and `TRANSPORT`, fixed when the block is built (R6, R7, R24, R111). -/
  cfg : Config
  /-- Environment: the bytes the byte source holds and has not handed over, in received order (R24, R27). -/
  source : List Byte
  /-- Environment: the host's schedule, the items still to be executed (R112, R117). -/
  pending : List Item
  /-- Environment: the results the host has got back, in order (R112, R113). -/
  log : List Result
  /-- The MODEL's own: how many RSTs were executed, the name of the free values now in `buf` and `FRAME` (log 5). -/
  resets : Nat
  deriving DecidableEq, Repr

/-- Why the machine stops. The spec gives the block no fault state (60_exceptions.md R93). -/
inductive Fault where
  /-- Raised by `memRead` and `memWrite` for an access that leaves the buffer index space 0 to `BUF_CAP - 1`, which
  the spec says does not exist (R11, R30). Safe: the machine stops; R35 says that no operation makes one. -/
  | outsideBuffer (addr n : Nat)
  deriving DecidableEq, Repr

/-- Why an item has no meaning. -/
inductive Refusal where
  /-- Raised by an arm of `exec` whose instruction has no meaning yet. Safe. No arm of this model raises it. -/
  | notModelled (mnemonic : String)
  /-- Raised by `step` for a schedule item that is no operation, because its bytes do not fit its format. Safe: such
  an item is none of the block's inputs, since all 256 byte values and all strobe vectors decode (R50, R48). -/
  | noOperation (why : DecodeError)
  deriving DecidableEq, Repr

/-- The block after `RST` (70_reset_and_hazards.md R109): the cursor and both flags are 0, and no byte of `buf` or
`FRAME` has a value of its own. -/
def Block.reset : Block where
  cursor := 0
  inFrame := false
  buf := []
  frame := []
  fvalid := false

/-- The machine right after reset when it was built with the parameters `c`: the byte source holds nothing, nothing
is scheduled and nothing has been returned (log 1). -/
def State.resetWith (c : Config) : State where
  block := Block.reset
  cfg := c
  source := []
  pending := []
  log := []
  resets := 0

/-- The machine right after reset (R108: the initial state is the state after RST). -/
def State.reset : State := State.resetWith Config.vectors

end Sys2Proof.Machine
end

