-- ==== Sys2Proof/Machine/Operands.lean ====
section
/-! DEFINITION. Operand forms: the byte each BYTE8 row stands for (30_encoding.md R43), the hex digit and the hex
pair (R45, R46, R49), and the payload pairs of a frame (42_extract.md R83, 20_memory.md R31). -/

namespace Sys2Proof.Machine

/-- The byte `00110ddd` (R43). -/
def hex07Byte (d : BitVec 3) : Byte := 0b00110#5 ++ d

/-- The byte `0011100d` (R43). -/
def hex89Byte (d : BitVec 1) : Byte := 0b0011100#7 ++ d

/-- The byte `0100001d` (R43). -/
def hexBCByte (d : BitVec 1) : Byte := 0b0100001#7 ++ d

/-- The byte `0100010d` (R43). -/
def hexDEByte (d : BitVec 1) : Byte := 0b0100010#7 ++ d

/-- `is_hex(c)` (R45): the sixteen uppercase hex digits. -/
def isHex (c : Byte) : Bool := (0x30#8 ≤ c && c ≤ 0x39#8) || (0x41#8 ≤ c && c ≤ 0x46#8)

/-- `hexval(c)` (R46): partial, as the spec asks (93_implementation_defined.md U1). The value is 0 to 15. -/
def hexval (c : Byte) : Option (BitVec 4) :=
  if 0x30#8 ≤ c ∧ c ≤ 0x39#8 then some ((c - 0x30#8).setWidth 4)
  else if 0x41#8 ≤ c ∧ c ≤ 0x46#8 then some ((c - 0x37#8).setWidth 4)
  else none

/-- `pairval(h, l) = hexval(h)[3:0] ++ hexval(l)[3:0]` (R49), partial like `hexval`. -/
def pairval (h l : Byte) : Option Byte :=
  match hexval h, hexval l with
  | some x, some y => some (x ++ y)
  | _, _ => none

/-- Pair `k` of a frame occupies the indices `1 + 2k` (high) and `2 + 2k` (low) (R31, R83). -/
def pairAt (raw : List Byte) (k : Nat) : Option Byte :=
  match raw[1 + 2 * k]?, raw[2 + 2 * k]? with
  | some h, some l => pairval h l
  | _, _ => none

/-- `P[k]` on any bytes: the decoded pair, and the free value where a character is no hex digit (log 11). -/
def pairByte (raw : List Byte) (k : Nat) : Byte :=
  match pairAt raw k with
  | some v => v
  | none => Config.undefinedPair raw k

/-- The byte a pair of characters stands for on any bytes: `pairval`, and the free value outside its domain (log 11). -/
def pairOrFree (h l : Byte) : Byte :=
  match pairval h l with
  | some v => v
  | none => Config.undefinedPair [h, l] 0

/-- The checksum (42_extract.md R84): the XOR of the five bytes of the CardId. -/
def checksum (c : CardId) : Byte := c.c0 ^^^ c.c1 ^^^ c.c2 ^^^ c.c3 ^^^ c.c4

/-- The outputs on success (R83 to R86) from the six decoded pairs: the first five are the CardId, the sixth is only
diagnostic and does not enter the checksum. -/
def extractOk (p : Nat → Byte) : ExtractResult :=
  .ok ⟨p 0, p 1, p 2, p 3, p 4⟩ (checksum ⟨p 0, p 1, p 2, p 3, p 4⟩) (p 5)

/-- `extract(raw, valid)` as the spec defines it (R90): a pure function of a Frame value, and no value on an
ill-formed one, valid with a payload character that is no hex digit (R88, U1). -/
def extract (raw : List Byte) (valid : Bool) : Option ExtractResult :=
  if valid then
    if (List.range 6).all (fun k => (pairAt raw k).isSome) then some (extractOk (pairByte raw)) else none
  else some .xerr

/-- The extractor's outputs at all times (R81, R90): `extract` where it is defined, and on an ill-formed Frame value
the same computation from free values. The precondition is the flag alone (R88). -/
def extractorOutputs (raw : List Byte) (valid : Bool) : ExtractResult :=
  if valid then extractOk (pairByte raw) else .xerr

end Sys2Proof.Machine
end

