-- ==== Sys2Proof/Machine/Flags.lean ====
section
/-! DEFINITION. The two flags of the block, `in_frame` and `FVALID` (00_scope.md R9, 10_state.md R15, R18): every
computation that sets one, and the status codes derived from them. -/

namespace Sys2Proof.Machine

/-- `in_frame` after a byte was appended (40_receive.md R57): it goes to 0 on an END and stays 1 otherwise. -/
def inFrameAfterAppend (b : Byte) : Bool := b != END

/-- `in_frame` after a START began a frame (R58). -/
def inFrameAfterStart : Bool := true

/-- `frame_ok(raw)` (41_evaluate.md R68): 14 bytes, START first, END last, and twelve hex digits between. -/
def frameOk (raw : List Byte) : Bool :=
  raw.length == FRAME_LEN && raw[0]? == some START && raw[13]? == some END
    && ((raw.drop 1).take 12).all isHex

/-- `FVALID` after an EVAL at `cursor = 14` (R70). -/
def fvalidAfterJudging (raw : List Byte) : Bool := frameOk raw

/-- `FVALID` after an EVAL at `cursor > 14` (R69). -/
def fvalidAfterOverrun : Bool := false

/-- The result of an EVAL at `cursor = 14` (R70). -/
def judgement (ok : Bool) : FrameResult := if ok then .valid else .malformed

/-- The 2-bit code of a FrameResult (60_exceptions.md R94). -/
def FrameResult.code : FrameResult → BitVec 2
  | .incomplete => 0b00#2
  | .valid => 0b01#2
  | .malformed => 0b10#2
  | .overrun => 0b11#2

/-- The source's `Invalid` is `RES[1] = 1` (R94). -/
def FrameResult.isInvalid (r : FrameResult) : Bool := r.code.getLsbD 1

/-- `XST` (R95): 0 is OK, 1 is XERR. -/
def ExtractResult.xst : ExtractResult → Bool
  | .ok _ _ _ => false
  | .xerr => true

end Sys2Proof.Machine
end

