-- ==== Sys2Proof/Machine/Memory.lean ====
section
/-! DEFINITION. Reading and writing one byte of an index space, and its canonical form (20_memory.md R30, R35). -/

namespace Sys2Proof.Machine

/-- The byte written at index `a` since the last reset, and nothing where none was. -/
def Memory.read : Memory → Nat → Option Byte
  | [], _ => none
  | (k, b) :: m, a => if k = a then some b else Memory.read m a

/-- Index `a` takes the byte `v`; every other index keeps what it has. -/
def Memory.write : Memory → Nat → Byte → Memory
  | [], a, v => [(a, v)]
  | (k, b) :: m, a, v =>
    if a < k then (a, v) :: (k, b) :: m
    else if a = k then (a, v) :: m
    else (k, b) :: Memory.write m a v

/-- The bytes `vs` at ascending indices from `a` (R11: `MemWrite`). -/
def Memory.writeBytes : Memory → Nat → List Byte → Memory
  | m, _, [] => m
  | m, a, v :: vs => Memory.writeBytes (Memory.write m a v) (a + 1) vs

/-- The canonical form: indices strictly rising. No entry can equal what an unlisted index reads as, which is no
value; so equal memories are equal lists. -/
abbrev Memory.wf (m : Memory) : Prop := m.Pairwise (fun x y => x.1 < y.1)

end Sys2Proof.Machine
end

