-- ==== Sys2Proof/Machine/Ops.lean ====
section
/-! DEFINITION. The operations the meanings share: the guarded access to the buffer (00_scope.md R11), transitions
(a) and (b) of the receive rule (40_receive.md R57 to R59), the result policy (41_evaluate.md R73), the byte-source
handshake (10_state.md R27), the drain (R74), returning a result (60_exceptions.md R93, R100) and the reset (R109). -/

namespace Sys2Proof.Machine

/-- What reading `buf[i]` gives: the byte written there since the last reset, else the free value of U3. -/
def Block.bufByte (resets : Nat) (k : Block) (i : Nat) : Byte :=
  match k.buf.read i with
  | some v => v
  | none => Config.unwrittenBuf resets i

/-- What reading `FRAME[i]` gives: the byte captured since the last reset, else the stable free value of U4. -/
def Block.frameByte (resets : Nat) (k : Block) (i : Nat) : Byte :=
  match k.frame.read i with
  | some v => v
  | none => Config.unwrittenFrame resets i

/-- The raw bytes of the Frame the block holds, `FRAME[0]` to `FRAME[13]` (10_state.md R17, R19). -/
def Block.frameBytes (resets : Nat) (k : Block) : List Byte :=
  (List.range FRAME_LEN).map (Block.frameByte resets k)

/-- `MemRead(addr, n)` (R11): the bytes `buf[addr .. addr+n-1]`, defined only inside the buffer. -/
def memRead (c : Config) (resets : Nat) (addr n : Nat) (k : Block) : Except Fault (List Byte) :=
  if addr + n ≤ c.bufCap then .ok ((List.range n).map (fun i => Block.bufByte resets k (addr + i)))
  else .error (.outsideBuffer addr n)

/-- `MemWrite(addr, 1, v)` (R11): `buf[addr] <- v`, defined only inside the buffer. -/
def memWrite (c : Config) (addr : Nat) (v : Byte) (k : Block) : Except Fault Block :=
  if addr + 1 ≤ c.bufCap then .ok { k with buf := k.buf.write addr v }
  else .error (.outsideBuffer addr 1)

/-- Transition (a), append-if-in-frame (R57). -/
def appendIfInFrame (c : Config) (b : Byte) (k : Block) : Except Fault Block :=
  if k.inFrame then
    match memWrite c k.cursor b k with
    | .ok k' => .ok { k' with cursor := k.cursor + 1, inFrame := inFrameAfterAppend b }
    | .error e => .error e
  else .ok k

/-- Transition (b), start-new-frame-if-start-marker (R58). -/
def startIfMarker (c : Config) (b : Byte) (k : Block) : Except Fault Block :=
  if b = START then
    match memWrite c 0 START k with
    | .ok k' => .ok { k' with cursor := 1, inFrame := inFrameAfterStart }
    | .error e => .error e
  else .ok k

/-- `RXB b` (R59): transition (a), then transition (b) on the state that (a) left, as one atomic step. It is executed
only where it is enabled (R56); `State.handOver` asks. -/
def Block.receive (c : Config) (b : Byte) (k : Block) : Except Fault Block :=
  match appendIfInFrame c b k with
  | .ok k' => startIfMarker c b k'
  | .error e => .error e

/-- The capture of a judged accumulation (R70): all 14 bytes of `FRAME` in one step. -/
def Block.capture (raw : List Byte) (k : Block) : Block :=
  { k with frame := Memory.writeBytes [] 0 raw, fvalid := fvalidAfterJudging raw }

/-- `EVAL` as a function to the next state and the result (R73), the cases in the source's order. -/
def Block.evaluate (c : Config) (resets : Nat) (k : Block) : Except Fault (Block × FrameResult) :=
  if FRAME_LEN < k.cursor then
    .ok ({ k with cursor := 0, fvalid := fvalidAfterOverrun }, .overrun)
  else if k.cursor = FRAME_LEN then
    match memRead c resets 0 FRAME_LEN k with
    | .ok raw => .ok ({ Block.capture raw k with cursor := 0 }, judgement (frameOk raw))
    | .error e => .error e
  else .ok (k, .incomplete)

/-- What reading `buf[i]` gives in this state. -/
def State.bufByte (s : State) (i : Nat) : Byte := Block.bufByte s.resets s.block i

/-- What reading `FRAME[i]` gives in this state. -/
def State.frameByte (s : State) (i : Nat) : Byte := Block.frameByte s.resets s.block i

/-- The raw bytes of the Frame the block holds. -/
def State.frameBytes (s : State) : List Byte := Block.frameBytes s.resets s.block

/-- The extractor's outputs, which show `XTR` on the current `(FRAME, FVALID)` at all times (R48, R81). -/
def State.extractor (s : State) : ExtractResult := extractorOutputs s.frameBytes s.block.fvalid

/-- Returning a result: the one thing that stands where a processor takes an exception (R93, R100). It saves nothing,
changes no mode and goes nowhere; the host gets the value. There is nothing to return from (R101). -/
def State.raise (r : Result) (s : State) : State := { s with log := s.log ++ [r] }

/-- `rx_valid` (R27): the byte source holds a byte; constant 0 with the stub transport (R7). -/
def State.rxValid (s : State) : Bool := s.cfg.transport == .serial && !s.source.isEmpty

/-- `rx_ready` while `rst = 0` (R27, R56): `cursor < BUF_CAP`. -/
def State.rxReady (s : State) : Bool := decide (s.block.cursor < s.cfg.bufCap)

/-- `rx_fire = rx_valid and rx_ready` while `rst = 0` (30_encoding.md R48): an RXB happens in this step. -/
def State.rxFire (s : State) : Bool := s.rxValid && s.rxReady

/-- Bytes reach the byte source, behind what it still holds (R27, R32); with the stub transport none ever do (R7). -/
def State.deliver (bs : List Byte) (s : State) : State :=
  match s.cfg.transport with
  | .serial => { s with source := s.source ++ bs }
  | .altStub => s

/-- The handshake of one step (R27): with `rx_valid` and `rx_ready` the source's first byte is handed over and one
RXB happens. Otherwise no RXB happens and a byte offered stays in the source, in order (R56, U7; log 6). -/
def State.handOver (s : State) : Except Fault State :=
  match s.cfg.transport, s.source with
  | .serial, b :: rest =>
    if s.rxReady then
      match Block.receive s.cfg b s.block with
      | .ok k => .ok { s with block := k, source := rest }
      | .error e => .error e
    else .ok s
  | _, _ => .ok s

/-- Up to `n` handshakes; those that find no byte or no room change nothing. -/
def State.drainUpTo : Nat → State → Except Fault State
  | 0, s => .ok s
  | n + 1, s =>
    match s.handOver with
    | .ok s' => State.drainUpTo n s'
    | .error e => .error e

/-- The drain of a FEED (R74): RXB while the source has a byte and `cursor < BUF_CAP`. -/
def State.drain (s : State) : Except Fault State := State.drainUpTo s.source.length s

/-- `EVAL` on the machine (R73): the block takes the step and the host gets `RES`, which nothing latches (R22). -/
def State.evaluate (s : State) : Except Fault State :=
  match Block.evaluate s.cfg s.resets s.block with
  | .ok (k, r) => .ok (State.raise (.frameResult r) { s with block := k })
  | .error e => .error e

/-- One byte offered in a step without the `eval` strobe (R48, S = 010; held where it cannot be taken). -/
def State.offerByte (b : Byte) (s : State) : Except Fault State := (s.deliver [b]).handOver

/-- One byte offered in a step with the `eval` strobe (R48, S = 011): the RXB first, then the EVAL. -/
def State.offerByteEval (b : Byte) (s : State) : Except Fault State :=
  match s.offerByte b with
  | .ok s' => s'.evaluate
  | .error e => .error e

/-- `FEED` (R74): the drain of what the byte source holds, then one EVAL. -/
def State.feedBytes (bs : List Byte) (s : State) : Except Fault State :=
  match (s.deliver bs).drain with
  | .ok s' => s'.evaluate
  | .error e => .error e

/-- `STREAM` (R54): one FEED1 after another. -/
def State.streamBytes : List Byte → State → Except Fault State
  | [], s => .ok s
  | b :: bs, s =>
    match s.offerByteEval b with
    | .ok s' => State.streamBytes bs s'
    | .error e => .error e

/-- `RST` (R109). Every byte of `buf` and `FRAME` is unconstrained afterwards: nothing is listed, and the free values
are those of a new reset (log 5). -/
def State.resetBlock (s : State) : State := { s with block := Block.reset, resets := s.resets + 1 }

/-- The outcome of an operation. -/
def outcome : Except Fault State → Host.Outcome State Fault Refusal
  | .ok s => .next s
  | .error e => .fault e

end Sys2Proof.Machine
end

