-- ==== Sys2Proof/Machine/Control.lean ====
section
/-! DEFINITION. The meanings of RST (70_reset_and_hazards.md R109) and of a step without a strobe (30_encoding.md
R48). -/

namespace Sys2Proof.Machine

/-- `RST`, the strobe vectors 1xx (R109): the reset alone executes. No result is produced, and a byte offered in this
step is not taken: the byte source keeps it (R27, log 17). -/
def execRst (offer : Option Byte) (_evalStrobe : Bool) (s : State) : Host.Outcome State Fault Refusal :=
  outcome (.ok (State.resetBlock (s.deliver offer.toList)))

/-- `IDLE`, the strobe vector 000 (R48): nothing; the state is unchanged. A byte the source holds is handed over by the
step, before this operation (`State.handshake`). -/
def execIdle (s : State) : Host.Outcome State Fault Refusal := outcome (.ok s)

end Sys2Proof.Machine
end

