-- ==== Sys2Proof/Machine/Evaluate.lean ====
section
/-! DEFINITION. The meanings of EVAL and of the composites FEED1, FEED and STREAM (41_evaluate.md R67 to R75,
30_encoding.md R48, R54). -/

namespace Sys2Proof.Machine

/-- `EVAL`, the strobe vector 001 (R73). A byte the source holds is handed over by the step, before this operation
(`State.handshake`). -/
def execEval (s : State) : Host.Outcome State Fault Refusal := outcome s.evaluate

/-- `FEED1 b`, the strobe vector 011 (R48): the RXB, then the EVAL on the state it left, as one step. At
`cursor = BUF_CAP` the byte is held and only the EVAL executes. -/
def execFeed1 (data : Byte) (s : State) : Host.Outcome State Fault Refusal := outcome (s.offerByteEval data)

/-- `FEED b1 .. bn` (R74, R75): what all its steps do together. The machine takes them one at a time (`State.issue`). -/
def execFeed (bytes : List Byte) (s : State) : Host.Outcome State Fault Refusal := outcome (s.feedBytes bytes)

/-- `STREAM b1 .. bn` (R54, R77): what all its steps do together. The machine takes them one at a time
(`State.issue`). -/
def execStream (bytes : List Byte) (s : State) : Host.Outcome State Fault Refusal := outcome (s.streamBytes bytes)

end Sys2Proof.Machine
end

