-- ==== Sys2Proof/Machine/Extract.lean ====
section
/-! DEFINITION. The meaning of XTR (42_extract.md R81 to R92) and of the two data formats of the opcode table, the
wire frame (30_encoding.md R41, 41_evaluate.md R68) and the hex pair (R49). None of the three writes any state of the
block: each returns a value to the host. -/

namespace Sys2Proof.Machine

/-- `XTR` (R82, R90): the host reads the extractor's outputs; no state is written. -/
def execXtr (s : State) : Host.Outcome State Fault Refusal :=
  outcome (.ok (State.raise (.extraction s.extractor) s))

/-- `FRAME`: the judgement of 14 bytes as a wire frame, `frame_ok` (R41, R68; log 12). -/
def execFrame (raw : List Byte) (s : State) : Host.Outcome State Fault Refusal :=
  outcome (.ok (State.raise (.wireFrame (frameOk raw)) s))

/-- `PAIR`: the byte a hex pair assembles to (R49), and the free value where a character is no hex digit (logs 11,
12). -/
def execPair (h l : Byte) (s : State) : Host.Outcome State Fault Refusal :=
  outcome (.ok (State.raise (.pairValue (pairOrFree h l)) s))

end Sys2Proof.Machine
end

