-- ==== Sys2Proof/Machine/Receive.lean ====
section
/-! DEFINITION. The meanings of the operation RXB (40_receive.md R55 to R66): the strobe row, and one meaning for each
BYTE8 row, whose byte is the operand. In each the byte is offered to the block behind what the byte source holds
(logs 6, 7); with nothing held and `cursor < BUF_CAP` it is the byte the RXB carries. -/

namespace Sys2Proof.Machine

/-- `RXB.START` (R61, R62). -/
def execRxbStart (s : State) : Host.Outcome State Fault Refusal := outcome (s.offerByte 0x02#8)

/-- `RXB.END` (R60, R63). -/
def execRxbEnd (s : State) : Host.Outcome State Fault Refusal := outcome (s.offerByte 0x03#8)

/-- `RXB.HEX.0-7` (R60, R64). -/
def execRxbHex07 (d : BitVec 3) (s : State) : Host.Outcome State Fault Refusal := outcome (s.offerByte (hex07Byte d))

/-- `RXB.HEX.8-9` (R60, R64). -/
def execRxbHex89 (d : BitVec 1) (s : State) : Host.Outcome State Fault Refusal := outcome (s.offerByte (hex89Byte d))

/-- `RXB.HEX.A` (R60, R64). -/
def execRxbHexA (s : State) : Host.Outcome State Fault Refusal := outcome (s.offerByte 0x41#8)

/-- `RXB.HEX.B-C` (R60, R64). -/
def execRxbHexBC (d : BitVec 1) (s : State) : Host.Outcome State Fault Refusal := outcome (s.offerByte (hexBCByte d))

/-- `RXB.HEX.D-E` (R60, R64). -/
def execRxbHexDE (d : BitVec 1) (s : State) : Host.Outcome State Fault Refusal := outcome (s.offerByte (hexDEByte d))

/-- `RXB.HEX.F` (R60, R64). -/
def execRxbHexF (s : State) : Host.Outcome State Fault Refusal := outcome (s.offerByte 0x46#8)

/-- `RXB.OTHER` (R60, R64, R50): stored like a hex digit inside a frame, dropped outside one. -/
def execRxbOther (b : Byte) (s : State) : Host.Outcome State Fault Refusal := outcome (s.offerByte b)

/-- `RXB rx_data`, the strobe vector 010 (R48, R59). -/
def execRxb (data : Byte) (s : State) : Host.Outcome State Fault Refusal := outcome (s.offerByte data)

end Sys2Proof.Machine
end

