-- ==== Sys2Proof/Machine/Dispatch.lean ====
section
/-! DEFINITION. The meaning of every instruction: one arm per row of the opcode table. -/

namespace Sys2Proof.Machine

def exec (i : Instr) (s : State) : Host.Outcome State Fault Refusal :=
  match i with
  | .rxbStart => Sys2Proof.Machine.execRxbStart s
  | .rxbEnd => Sys2Proof.Machine.execRxbEnd s
  | .rxbHex07 d => Sys2Proof.Machine.execRxbHex07 d s
  | .rxbHex89 d => Sys2Proof.Machine.execRxbHex89 d s
  | .rxbHexA => Sys2Proof.Machine.execRxbHexA s
  | .rxbHexBC d => Sys2Proof.Machine.execRxbHexBC d s
  | .rxbHexDE d => Sys2Proof.Machine.execRxbHexDE d s
  | .rxbHexF => Sys2Proof.Machine.execRxbHexF s
  | .rxbOther b => Sys2Proof.Machine.execRxbOther b s
  | .rst offer evalStrobe => Sys2Proof.Machine.execRst offer evalStrobe s
  | .idle => Sys2Proof.Machine.execIdle s
  | .rxb data => Sys2Proof.Machine.execRxb data s
  | .eval => Sys2Proof.Machine.execEval s
  | .feed1 data => Sys2Proof.Machine.execFeed1 data s
  | .xtr => Sys2Proof.Machine.execXtr s
  | .feed bytes => Sys2Proof.Machine.execFeed bytes s
  | .stream bytes => Sys2Proof.Machine.execStream bytes s
  | .frame raw => Sys2Proof.Machine.execFrame raw s
  | .pair h l => Sys2Proof.Machine.execPair h l s

end Sys2Proof.Machine
end

