-- ==== Sys2Proof/Machine/Fetch.lean ====
section
/-! DEFINITION. Where the next operation comes from. The block has no program counter and fetches nothing
(10_state.md R13): the host issues operations (70_reset_and_hazards.md R112, R117), and the items it has yet to issue
stand in `State.pending` (log 15). The byte source works in every step too: `State.handshake`. -/

namespace Sys2Proof.Machine

/-- What one step executes of an operation, and the state it executes in, with what remains of the operation back in
front of the schedule. Every operation but the two pseudo-operations is one step. FEED is not (41_evaluate.md R74): while
a byte is on offer and there is room its step is an RXB, the byte handed over by the handshake of a step without `eval`,
and the FEED goes on; else its step is the EVAL that ends it. STREAM is one FEED1 a step (30_encoding.md R54); with no
bytes it is no operation at all, and its item is only taken from the schedule (log 13). -/
def State.issue (i : Instr) (s : State) : Instr × State :=
  match i with
  | .rxbStart => (.rxbStart, s)
  | .rxbEnd => (.rxbEnd, s)
  | .rxbHex07 d => (.rxbHex07 d, s)
  | .rxbHex89 d => (.rxbHex89 d, s)
  | .rxbHexA => (.rxbHexA, s)
  | .rxbHexBC d => (.rxbHexBC d, s)
  | .rxbHexDE d => (.rxbHexDE d, s)
  | .rxbHexF => (.rxbHexF, s)
  | .rxbOther b => (.rxbOther b, s)
  | .rst offer ev => (.rst offer ev, s)
  | .idle => (.idle, s)
  | .rxb b => (.rxb b, s)
  | .eval => (.eval, s)
  | .feed1 b => (.feed1 b, s)
  | .xtr => (.xtr, s)
  | .feed bs =>
    let u := s.deliver bs
    if u.rxFire then (.idle, { u with pending := ⟨.pseudoFeed, []⟩ :: u.pending }) else (.eval, u)
  | .stream [] => (.stream [], s)
  | .stream [b] => (.feed1 b, s)
  | .stream (b :: c :: bs) => (.feed1 b, { s with pending := ⟨.pseudoStream, c :: bs⟩ :: s.pending })
  | .frame raw => (.frame raw, s)
  | .pair h l => (.pair h l, s)

/-- The operation of the next step and the state it executes in: the first item of the schedule is taken from it,
decoded and issued. With an empty schedule the host raises neither `rst` nor `eval` (30_encoding.md R48, R106). -/
def State.fetch (s : State) : Except DecodeError (Instr × State) :=
  match s.pending with
  | [] => .ok (.idle, s)
  | it :: rest =>
    match decode it with
    | .ok i => .ok (State.issue i { s with pending := rest })
    | .error e => .error e

/-- The rows whose item brings no byte of its own to a step with `rst = 0`: the strobe vectors 000 and 001 (R48). Every
other row offers its bytes itself (the RXB rows, FEED1), forces `rx_ready` to 0 (RST), is issued as other rows (FEED,
STREAM), or is no step of the block: a read of the extractor or a data format (92_eei_decisions.md D1; log 8). -/
def bringsNoByte : Instr → Bool
  | .rxbStart => false
  | .rxbEnd => false
  | .rxbHex07 _ => false
  | .rxbHex89 _ => false
  | .rxbHexA => false
  | .rxbHexBC _ => false
  | .rxbHexDE _ => false
  | .rxbHexF => false
  | .rxbOther _ => false
  | .rst _ _ => false
  | .idle => true
  | .rxb _ => false
  | .eval => true
  | .feed1 _ => false
  | .xtr => false
  | .feed _ => false
  | .stream _ => false
  | .frame _ => false
  | .pair _ _ => false

/-- The handshake that goes with the step of an operation (10_state.md R27: one RXB in each step with `rx_valid` and
`rx_ready`). Where the source holds a byte and the block has room, the vector of a step that the schedule calls 000 or
001 is in fact 010 or 011: the byte held first is received, before the EVAL if there is one (R48, R102). -/
def State.handshake (i : Instr) (s : State) : Except Fault State := if bringsNoByte i then s.handOver else .ok s

/-- The state whose next item is the one that the table word stands for. -/
def State.scheduleWord (s : State) (nbits w : Nat) : State := { s with pending := tableItem nbits w :: s.pending }

end Sys2Proof.Machine
end

