-- ==== Sys2Proof/Machine/Step.lean ====
section
/-! DEFINITION. One step: the next operation of the host's schedule, or none where nothing is scheduled. -/

namespace Sys2Proof.Machine

/-- One step of the machine (20_memory.md R29: operations are atomic and totally ordered): the handshake of the step
where the operation makes none of its own (10_state.md R27), then the operation. A FEED and a STREAM take one step for
each operation they expand to (`State.issue`). -/
def step (s : State) : Host.Outcome State Fault Refusal :=
  match s.fetch with
  | .ok (i, s') =>
    match s'.handshake i with
    | .ok u => exec i u
    | .error e => .fault e
  | .error e => .refused (.noOperation e)

/-- The state whose next step executes the instruction of a table word. -/
def State.withFetchWord (s : State) (nbits w : Nat) : State := s.scheduleWord nbits w

end Sys2Proof.Machine
end

