-- ==== Sys2Proof/Machine/Ports.lean ====
section
/-! DEFINITION. The output ports of 10_state.md R28 as functions of the state. They are derived values and no state
(R22, R23); the model works at the level of operations and the ports say only how values leave the block. -/

namespace Sys2Proof.Machine

/-- Bytes as one number, the first byte in the most significant place (R28). -/
def portBits : (w : Nat) → List Byte → BitVec w
  | w, bs => bs.foldl (fun acc b => (acc <<< 8) ||| b.setWidth w) 0

/-- The port `rx_ready`: `cursor < BUF_CAP` and `rst = 0` (R27). -/
def State.rxReadyPort (rst : Bool) (s : State) : Bool := s.rxReady && !rst

/-- The port `fvalid`. -/
def State.fvalidPort (s : State) : Bool := s.block.fvalid

/-- The port `frame[111:0]`: `FRAME[0]` in bits 111:104 down to `FRAME[13]` in bits 7:0. -/
def State.framePort (s : State) : BitVec 112 := portBits 112 s.frameBytes

/-- The port `xst`. -/
def State.xstPort (s : State) : Bool := s.extractor.xst

/-- The port `card[39:0]`, `CARD[0]` in bits 39:32. No value while `xst = 1`: the spec leaves the lines unspecified
and says they must not be read (R87, 93_implementation_defined.md U2). -/
def State.cardPort (s : State) : Option (BitVec 40) :=
  match s.extractor with
  | .ok c _ _ => some (portBits 40 [c.c0, c.c1, c.c2, c.c3, c.c4])
  | .xerr => none

/-- The port `csum[7:0]`; no value while `xst = 1`. -/
def State.csumPort (s : State) : Option Byte :=
  match s.extractor with
  | .ok _ c _ => some c
  | .xerr => none

/-- The port `p6[7:0]`; no value while `xst = 1`. -/
def State.p6Port (s : State) : Option Byte :=
  match s.extractor with
  | .ok _ _ p => some p
  | .xerr => none

/-- The ports `res_valid` and `res[1:0]` of the step in which a result was returned: the code of an EVAL's result,
and nothing for any other value. -/
def Result.resPort : Result → Option (BitVec 2)
  | .frameResult r => some r.code
  | _ => none

end Sys2Proof.Machine
end

