-- ==== Sys2Proof/Safety.lean ====
section
/-! DEFINITION. The words the statements use: the invariants of 10_state.md R26, the canonical form of the two index
spaces, when the block can take a byte at once, and runs of operations. -/

namespace Sys2Proof.Machine

/-- The invariants (a) to (f) of 10_state.md R26. -/
structure State.Inv (s : State) : Prop where
  /-- (a) the cursor is within the buffer. -/
  cursor_le : s.block.cursor ≤ s.cfg.bufCap
  /-- (b) a START is only ever at index 0. -/
  no_start : ∀ i, 1 ≤ i → i < s.block.cursor → s.bufByte i ≠ START
  /-- (c) an END is only ever the last accumulated byte. -/
  no_end : ∀ i, i + 1 < s.block.cursor → s.bufByte i ≠ END
  /-- (d) the last accumulated byte is an END exactly when the decoder is not inside a frame. -/
  end_iff : 0 < s.block.cursor → (s.bufByte (s.block.cursor - 1) = END ↔ s.block.inFrame = false)
  /-- (e) every byte below the cursor has been written since the last RST. -/
  written : ∀ i, i < s.block.cursor → (s.block.buf.read i).isSome = true
  /-- (f) the Frame value the block holds is well-formed (R19). -/
  frame_ok : s.block.fvalid = true → frameOk s.frameBytes = true

/-- The two index spaces are in canonical form and hold only indices that exist (20_memory.md R30, R35). -/
structure State.Canonical (s : State) : Prop where
  buf_wf : s.block.buf.wf
  frame_wf : s.block.frame.wf
  buf_index : ∀ i, (s.block.buf.read i).isSome = true → i < s.cfg.bufCap
  frame_index : ∀ i, (s.block.frame.read i).isSome = true → i < FRAME_LEN

/-- RXB is enabled and the byte offered next is the next one handed over: the implemented transport, no byte held,
and `cursor < BUF_CAP` (40_receive.md R56). -/
structure State.Receptive (s : State) : Prop where
  serial : s.cfg.transport = .serial
  nothing_held : s.source = []
  room : s.block.cursor < s.cfg.bufCap

/-- The byte that an RXB row offers, from the patterns of 30_encoding.md R43; nothing for the other rows. -/
def offeredByte : Instr → Option Byte
  | .rxbStart => some 0x02#8
  | .rxbEnd => some 0x03#8
  | .rxbHex07 d => some (BitVec.ofNat 8 (0x30 + d.toNat))
  | .rxbHex89 d => some (BitVec.ofNat 8 (0x38 + d.toNat))
  | .rxbHexA => some 0x41#8
  | .rxbHexBC d => some (BitVec.ofNat 8 (0x42 + d.toNat))
  | .rxbHexDE d => some (BitVec.ofNat 8 (0x44 + d.toNat))
  | .rxbHexF => some 0x46#8
  | .rxbOther b => some b
  | .rxb b => some b
  | .rst _ _ => none
  | .idle => none
  | .eval => none
  | .feed1 _ => none
  | .xtr => none
  | .feed _ => none
  | .stream _ => none
  | .frame _ => none
  | .pair _ _ => none

/-- Everything of `t` outside the block is as in `s`: parameters, byte source, schedule, results, free values. -/
def State.SameOutside (s t : State) : Prop :=
  t.cfg = s.cfg ∧ t.source = s.source ∧ t.pending = s.pending ∧ t.log = s.log ∧ t.resets = s.resets

/-- The capture register and its flag are unchanged: every byte of `FRAME` reads as before, and `FVALID` is as
before. -/
def State.SameFrame (s t : State) : Prop :=
  (∀ i, t.frameByte i = s.frameByte i) ∧ t.block.fvalid = s.block.fvalid

/-- A trace (30_encoding.md R53): operations executed one after another, up to the first that does not complete. -/
def runOps : List Instr → State → Host.Outcome State Fault Refusal
  | [], s => .next s
  | i :: is, s =>
    match exec i s with
    | .next t => runOps is t
    | .fault e => .fault e
    | .refused r => .refused r

/-- `n` steps of the machine, up to the first that does not complete. -/
def runSteps : Nat → State → Host.Outcome State Fault Refusal
  | 0, s => .next s
  | n + 1, s =>
    match step s with
    | .next t => runSteps n t
    | .fault e => .fault e
    | .refused r => .refused r

/-- A result that a host counts: every one but an INCOMPLETE (R54, 41_evaluate.md R76). -/
def Result.reported : Result → Bool
  | .frameResult .incomplete => false
  | _ => true

/-- A schedule of bytes and evaluations: each byte with the number of EVALs that follow it before the next one. -/
def scheduleOps (sched : List (Byte × Nat)) : List Instr :=
  sched.flatMap (fun p => .rxb p.1 :: List.replicate p.2 .eval)

/-- The premise of 41_evaluate.md R76: an EVAL follows every RXB that leaves `cursor >= 14`, before the next RXB and
before the end of the run. -/
def Prompt : List (Byte × Nat) → State → Prop
  | [], _ => True
  | (b, n) :: rest, s =>
    ∀ t, exec (.rxb b) s = .next t →
      (FRAME_LEN ≤ t.block.cursor → 0 < n) ∧
        ∀ u, runOps (List.replicate n .eval) t = .next u → Prompt rest u

/-- The value of a hex digit as a number (30_encoding.md R46): `c - 0x30` up to '9', `c - 0x37` above. -/
def digitValue (c : Byte) : Nat := if c.toNat ≤ 0x39 then c.toNat - 0x30 else c.toNat - 0x37

end Sys2Proof.Machine
end

