-- ==== Sys2Proof/Certificates/Slice0/Obligations.lean ====
section
/-! DEFINITION. The statements about the model, for the provers. Each docstring names the rule of spec/ it formalises,
or says that the statement speaks of a choice of the model and names its log entry. `b` is a byte offered to the block,
`s` the state before and `t` the state after. -/

open Sys2Proof Sys2Proof.Machine

/-! ### Decoding, encoding and the step -/

/-- A step runs the decoded item of the schedule, and where nothing is scheduled and no byte is on offer nothing happens
(30_encoding.md R48; that a schedule stands in the state is the model's choice, log 15). The case of an item other than
IDLE and EVAL with `rx_fire = 1` rests on log 8 too: the model adds no handshake of R27 to such a step, since RST forces
`rx_ready` to 0, the rows that offer bytes make their own, and XTR, FRAME and PAIR are, by the model's choice, no step of
the block and receive no byte on offer. A step of IDLE or EVAL with `rx_fire = 1` is `StepTakesTheByteOnOffer`; the
pseudo-operations, which take a step for each operation they expand to, are `FeedItemRunsOneOperationAStep` and
`StreamItemRunsOneFeedAStep`. -/
def Obligations.StepRunsTheDecodedItem : Prop :=
  (∀ (s : State) (it : Item) (rest : List Item) (i : Instr), s.pending = it :: rest → decode it = .ok i →
      s.rxFire = false ∨ (i ≠ .idle ∧ i ≠ .eval) → (∀ bs, i ≠ .feed bs ∧ i ≠ .stream bs) →
      step s = exec i { s with pending := rest }) ∧
    (∀ (s : State) (nbits w : Nat) (i : Instr), decodeTableWord nbits w = some i →
      s.rxFire = false ∨ (i ≠ .idle ∧ i ≠ .eval) → step (s.withFetchWord nbits w) = exec i s) ∧
    (∀ (s : State) (it : Item) (rest : List Item) (e : DecodeError), s.pending = it :: rest → decode it = .error e →
      step s = .refused (.noOperation e)) ∧
    ∀ s : State, s.pending = [] → s.rxFire = false → step s = .next s

/-- R27, R48: with a byte held and room, the step of an IDLE item and the step with nothing scheduled are the RXB of the
first held byte alone, and the step of an EVAL item is that RXB and then the EVAL on the state it left. The other held
bytes stay, in order. Model choices: that these items then run as the strobe vectors 010 and 011, where the items XTR,
FRAME and PAIR receive no byte (log 8), and that an empty schedule is a step without a strobe of the host (log 15). -/
def Obligations.StepTakesTheByteOnOffer : Prop :=
  ∀ (s : State) (b : Byte) (rest : List Byte), s.cfg.transport = .serial → s.source = b :: rest →
    s.block.cursor < s.cfg.bufCap →
    ∃ t, exec (.rxb b) { s with source := [] } = .next t ∧
      (s.pending = [] → step s = .next { t with source := rest }) ∧
      (∀ (it : Item) (p : List Item), s.pending = it :: p → decode it = .ok .idle →
        step s = .next { t with source := rest, pending := p }) ∧
      ∀ (it : Item) (p : List Item), s.pending = it :: p → decode it = .ok .eval →
        ∃ u, exec .eval { t with source := rest, pending := p } = .next u ∧ step s = .next u

/-- R48: which operation each of the eight strobe vectors selects, and what a step without a strobe and a step with
both `rx_fire` and `eval` execute. Three cases of the RXB in the last clause are the model's choice: at
`cursor = BUF_CAP`, where R56 gives no RXB, the offered byte waits in the source (log 6); with bytes already held the
front one goes first (log 7); with the stub transport, where R7 enables no RXB, the row completes and the byte is dropped
(log 9). -/
def Obligations.StrobeVectorSelectsTheOperation : Prop :=
  (∀ (x : Nat) (d : Byte), 4 ≤ x → x < 8 →
      ∃ offer ev, decode ⟨.strobe3, [BitVec.ofNat 8 x, d]⟩ = .ok (.rst offer ev) ∧
        ∀ s : State, ∃ t, exec (.rst offer ev) s = .next t ∧ t.block = Block.reset ∧ t.log = s.log) ∧
    (∀ d : Byte, decode ⟨.strobe3, [0#8, d]⟩ = .ok .idle ∧ decode ⟨.strobe3, [2#8, d]⟩ = .ok (.rxb d) ∧
      decode ⟨.strobe3, [1#8, d]⟩ = .ok .eval ∧ decode ⟨.strobe3, [3#8, d]⟩ = .ok (.feed1 d)) ∧
    (∀ s : State, exec .idle s = .next s) ∧
    ∀ (s : State) (d : Byte), ∃ t u, exec (.rxb d) s = .next t ∧ exec .eval t = .next u ∧ exec (.feed1 d) s = .next u

/-- A few words written out from the encodings of R43, R48, R41 and R49 decode to the instructions they stand for. -/
def Obligations.WordsOfTheTableDecode : Prop :=
  decode ⟨.byte8, [0b00000010#8]⟩ = .ok .rxbStart ∧ decode ⟨.byte8, [0b00000011#8]⟩ = .ok .rxbEnd ∧
    decode ⟨.byte8, [0b00110101#8]⟩ = .ok (.rxbHex07 0b101#3) ∧ decode ⟨.byte8, [0b00111001#8]⟩ = .ok (.rxbHex89 1#1) ∧
    decode ⟨.byte8, [0b01000111#8]⟩ = .ok (.rxbOther 0x47#8) ∧ decode ⟨.strobe3, [0b011#8, 0x41#8]⟩ = .ok (.feed1 0x41#8) ∧
    decode ⟨.pair16, [0x41#8, 0x42#8]⟩ = .ok (.pair 0x41#8 0x42#8)

/-- R43: every byte value belongs to exactly one of four classes, by its value alone; the rows are disjoint, they have 1,
1, 8, 2, 1, 2, 2 and 1 values, and the classes 1, 1, 16 and 238. -/
def Obligations.ByteClassesPartitionTheBytes : Prop :=
  (∀ b : Byte, (byteClass b = .start ↔ b = 0x02#8) ∧ (byteClass b = .endMarker ↔ b = 0x03#8) ∧
      (byteClass b = .hex ↔ isHex b = true) ∧ (byteClass b = .other ↔ isOtherByte b = true)) ∧
    (∀ b : Byte, (byteRows.filter (byteRowMatches b)).length ≤ 1) ∧
    (byteRows.map (fun r => ((List.range 256).filter (fun n => byteRowMatches (BitVec.ofNat 8 n) r)).length))
      = [1, 1, 8, 2, 1, 2, 2, 1] ∧
    ([ByteClass.start, .endMarker, .hex, .other].map
      (fun c => ((List.range 256).filter (fun n => byteClass (BitVec.ofNat 8 n) = c)).length)) = [1, 1, 16, 238]

/-- Decode and encode agree: the item of every well-formed instruction, with every operand, decodes to it. -/
def Obligations.DecodeOfEncodeIsTheInstruction : Prop :=
  ∀ i : Instr, i.wellFormed = true → decode (encode i) = .ok i

/-- What the decoder answers is well-formed, and is encoded by the very item it was read from (in a STROBE3 item a byte
that is not offered is a don't-care, so those items are left out). -/
def Obligations.DecodedInstructionsAreWellFormed : Prop :=
  ∀ (it : Item) (i : Instr), decode it = .ok i →
    i.wellFormed = true ∧ (it.format ≠ .strobe3 → encode i = it)

/-- R55: the encoding of an RXB is the 8-bit value of its byte, for every one of the 256 values; the BYTE8 row it
selects executes as the RXB of that byte. -/
def Obligations.ByteRowsExecuteAsRxbOfTheirByte : Prop :=
  ∀ (b : Byte) (s : State), ∃ i, decode ⟨.byte8, [b]⟩ = .ok i ∧ offeredByte i = some b ∧ exec i s = exec (.rxb b) s

/-! ### Reset -/

/-- R109: `RST` sets the cursor and both flags to 0 and leaves no byte of `buf` and `FRAME` with a value of its own; it
returns no result. It overrides the two other strobes. -/
def Obligations.RstResetsTheBlock : Prop :=
  ∀ (offer : Option Byte) (ev : Bool) (s : State), ∃ t, exec (.rst offer ev) s = .next t ∧
    t.block.cursor = 0 ∧ t.block.inFrame = false ∧ t.block.fvalid = false ∧
    (∀ i, t.block.buf.read i = none ∧ t.block.frame.read i = none) ∧ t.log = s.log ∧ t.cfg = s.cfg

/-- The model's choices at an `RST` (logs 3, 4, 5, 9, 17): the bytes of `buf` and `FRAME` are the free values of a new
reset, the byte offered in the step stays with the byte source (log 17) or, with the stub transport, is dropped and the
source holds what it held (log 9), and the schedule is untouched. -/
def Obligations.RstLeavesFreeBytesAndHoldsTheOfferedByte : Prop :=
  ∀ (offer : Option Byte) (ev : Bool) (s : State), ∃ t, exec (.rst offer ev) s = .next t ∧
    (∀ i, t.bufByte i = Config.unwrittenBuf (s.resets + 1) i ∧ t.frameByte i = Config.unwrittenFrame (s.resets + 1) i) ∧
    (s.cfg.transport = .serial → t.source = s.source ++ offer.toList) ∧
    (s.cfg.transport = .altStub → t.source = s.source) ∧ t.pending = s.pending

/-- R110: straight after `RST`, EVAL gives INCOMPLETE with the state of the block unchanged any number of times, XTR
gives XERR, `rx_ready` is 1, `fvalid` is 0, no byte of `FRAME` has a value of its own, and every byte before the first
START is dropped. -/
def Obligations.FirstResultsAfterRst : Prop :=
  ∀ (offer : Option Byte) (ev : Bool) (s t : State), exec (.rst offer ev) s = .next t →
    (∀ n : Nat, ∃ u, runOps (List.replicate n .eval) t = .next u ∧ u.block = t.block ∧
      u.log = t.log ++ List.replicate n (.frameResult .incomplete)) ∧
    exec .xtr t = .next { t with log := t.log ++ [.extraction .xerr] } ∧
    t.rxReadyPort false = true ∧ t.fvalidPort = false ∧ (∀ i, t.block.frame.read i = none) ∧
    (t.cfg.transport = .serial → t.source = [] → ∀ bs : List Byte, START ∉ bs →
      runOps (bs.map .rxb) t = .next t)

/-! ### RXB -/

/-- R60: outside a frame every byte but START is dropped, for every row that offers one. -/
def Obligations.BytesOutsideAFrameAreDropped : Prop :=
  ∀ (i : Instr) (b : Byte) (s : State), offeredByte i = some b → s.Receptive → s.block.inFrame = false → b ≠ START →
    exec i s = .next s

/-- R61, R62: a START begins a fresh accumulation whatever was in progress; inside a frame it is also written at the
old cursor index. No result is returned. -/
def Obligations.StartBeginsAFreshAccumulation : Prop :=
  ∀ (i : Instr) (s : State), offeredByte i = some START → s.Receptive →
    ∃ t, exec i s = .next t ∧ t.block.cursor = 1 ∧ t.block.inFrame = true ∧ t.bufByte 0 = START ∧
      (s.block.inFrame = true → t.bufByte s.block.cursor = START) ∧
      (∀ a, a ≠ 0 → (s.block.inFrame = true → a ≠ s.block.cursor) → t.bufByte a = s.bufByte a) ∧
      s.SameFrame t ∧ s.SameOutside t

/-- R63: an END inside a frame is appended and ends the accumulation, at whatever index it stands. -/
def Obligations.EndInsideAFrameIsAppendedAndClosesIt : Prop :=
  ∀ (i : Instr) (s : State), offeredByte i = some END → s.Receptive → s.block.inFrame = true →
    ∃ t, exec i s = .next t ∧ t.block.cursor = s.block.cursor + 1 ∧ t.block.inFrame = false ∧
      t.bufByte s.block.cursor = END ∧ (∀ a, a ≠ s.block.cursor → t.bufByte a = s.bufByte a) ∧
      s.SameFrame t ∧ s.SameOutside t

/-- R64: every other byte inside a frame is appended, hex digit or not. -/
def Obligations.OtherBytesInsideAFrameAreAppended : Prop :=
  ∀ (i : Instr) (b : Byte) (s : State), offeredByte i = some b → b ≠ START → b ≠ END → s.Receptive →
    s.block.inFrame = true →
    ∃ t, exec i s = .next t ∧ t.block.cursor = s.block.cursor + 1 ∧ t.block.inFrame = true ∧
      t.bufByte s.block.cursor = b ∧ (∀ a, a ≠ s.block.cursor → t.bufByte a = s.bufByte a) ∧
      s.SameFrame t ∧ s.SameOutside t

/-- The model's reading of the stall of R56 and U7 (log 6): at `cursor = BUF_CAP` no RXB happens, the block is
unchanged, and the byte stays in the byte source, in order. -/
def Obligations.FullBufferHoldsTheOfferedByte : Prop :=
  ∀ (i : Instr) (b : Byte) (s : State), offeredByte i = some b → s.cfg.transport = .serial →
    s.cfg.bufCap ≤ s.block.cursor → exec i s = .next { s with source := s.source ++ [b] }

/-- Bytes are handed over in the order the source received them (R27, R32; log 7): while the source holds bytes, the
first of them is the one the block receives, and the byte offered now waits behind the rest. -/
def Obligations.HeldBytesAreHandedOverFirst : Prop :=
  ∀ (i : Instr) (b c : Byte) (rest : List Byte) (s : State), offeredByte i = some b → s.cfg.transport = .serial →
    s.block.cursor < s.cfg.bufCap → s.source = c :: rest →
    ∃ t, exec (.rxb c) { s with source := [] } = .next t ∧ exec i s = .next { t with source := rest ++ [b] }

/-- R7, R75 (i) and log 9: with the stub transport no byte is ever offered, so no RXB happens and every FEED and FEED1
is a bare EVAL. -/
def Obligations.StubTransportDeliversNothing : Prop :=
  ∀ s : State, s.cfg.transport = .altStub →
    (∀ (i : Instr) (b : Byte), offeredByte i = some b → exec i s = .next s) ∧
    (∀ b : Byte, exec (.feed1 b) s = exec .eval s) ∧ (∀ bs : List Byte, exec (.feed bs) s = exec .eval s) ∧
    ∀ bs : List Byte, exec (.stream bs) s = runOps (List.replicate bs.length .eval) s

/-- R15: among the operations RXB, EVAL and XTR, `in_frame` is set to 1 only by an RXB whose byte is START and to 0 only
by an RXB that appends an END. -/
def Obligations.OnlyMarkersChangeInFrame : Prop :=
  (∀ (i : Instr) (b : Byte) (s t : State), offeredByte i = some b → s.Receptive → exec i s = .next t →
      (s.block.inFrame = false → t.block.inFrame = true → b = START) ∧
        (s.block.inFrame = true → t.block.inFrame = false → b = END)) ∧
    ∀ (s t : State), exec .eval s = .next t ∨ exec .xtr s = .next t → t.block.inFrame = s.block.inFrame

/-- A truncated or absent frame (R63, R96): with `in_frame = 0` and `cursor < 14`, every EVAL is INCOMPLETE and every
byte is dropped, in any order and number, until a START. -/
def Obligations.TruncatedFrameStaysIncomplete : Prop :=
  ∀ (ops : List Instr) (s : State), s.Receptive → s.block.inFrame = false → s.block.cursor < 14 →
    (∀ i ∈ ops, i = .eval ∨ ∃ b, offeredByte i = some b ∧ b ≠ START) →
    ∃ t, runOps ops s = .next t ∧ t.block = s.block ∧
      t.log = s.log ++ List.replicate (ops.count .eval) (.frameResult .incomplete)

/-! ### EVAL -/

/-- R69: an EVAL at `cursor > 14` resets the length and the validity and reports OVERRUN; nothing else changes, and
`rx_ready` is 1 again. -/
def Obligations.EvalReportsOverrun : Prop :=
  ∀ s : State, 14 < s.block.cursor → ∃ t, exec .eval s = .next t ∧
    t = { s with block := { s.block with cursor := 0, fvalid := false }, log := s.log ++ [.frameResult .overrun] } ∧
    t.rxReady = true

/-- R68, R70: an EVAL at `cursor = 14` captures the 14 bytes, valid or not, sets `FVALID` to the outcome of the
validation, resets the cursor and reports VALID or MALFORMED; `buf` and `in_frame` are unchanged. -/
def Obligations.EvalJudgesACompleteAccumulation : Prop :=
  ∀ s : State, s.block.cursor = 14 → ∃ t, exec .eval s = .next t ∧ t.block.cursor = 0 ∧
    (t.block.fvalid = true ↔ s.bufByte 0 = START ∧ s.bufByte 13 = END ∧
      ∀ i, 1 ≤ i → i ≤ 12 → isHex (s.bufByte i) = true) ∧
    (∀ i, i < 14 → t.frameByte i = s.bufByte i) ∧ (∀ i, t.bufByte i = s.bufByte i) ∧
    t.block.inFrame = s.block.inFrame ∧
    t.log = s.log ++ [.frameResult (if t.block.fvalid then .valid else .malformed)] ∧
    t.cfg = s.cfg ∧ t.source = s.source ∧ t.pending = s.pending ∧ t.resets = s.resets

/-- R71: an EVAL at `cursor < 14` reports INCOMPLETE and is the identity on the state. -/
def Obligations.EvalIncompleteChangesNothing : Prop :=
  ∀ s : State, s.block.cursor < 14 →
    exec .eval s = .next { s with log := s.log ++ [.frameResult .incomplete] }

/-- R72: an EVAL never writes `in_frame` and never writes `buf`; it does not read `in_frame` either: two states that
differ in it alone give the same result and states that differ in it alone. -/
def Obligations.EvalNeitherReadsNorWritesInFrame : Prop :=
  ∀ (s : State) (f : Bool), ∃ t, exec .eval s = .next t ∧ t.block.inFrame = s.block.inFrame ∧
    t.block.buf = s.block.buf ∧
    exec .eval { s with block := { s.block with inFrame := f } } =
      .next { t with block := { t.block with inFrame := f } }

/-- R94: the code of the result of every EVAL, case by case, and `Invalid` as its high bit. -/
def Obligations.EvalResultCodes : Prop :=
  ∀ s : State, ∃ t r, exec .eval s = .next t ∧ t.log = s.log ++ [.frameResult r] ∧
    (r.code = 0#2 ↔ s.block.cursor < 14) ∧
    (r.code = 1#2 ↔ s.block.cursor = 14 ∧ frameOk ((List.range 14).map s.bufByte) = true) ∧
    (r.code = 2#2 ↔ s.block.cursor = 14 ∧ frameOk ((List.range 14).map s.bufByte) = false) ∧
    (r.code = 3#2 ↔ 14 < s.block.cursor) ∧
    (r.isInvalid = true ↔ r = .malformed ∨ r = .overrun)

/-- R26 (g) and R36: right after any EVAL the cursor is at most 13, so an EVAL straight after it returns INCOMPLETE and
changes nothing. -/
def Obligations.SecondEvalIsIncomplete : Prop :=
  ∀ s : State, ∃ t, exec .eval s = .next t ∧ t.block.cursor ≤ 13 ∧
    exec .eval t = .next { t with log := t.log ++ [.frameResult .incomplete] }

/-- R72, 95_test_vectors.md P6: an accumulation begun at `cursor = 0` with `in_frame = 1` cannot validate; fourteen
bytes of it with no marker before the last give MALFORMED. -/
def Obligations.HeadlessAccumulationIsMalformed : Prop :=
  ∀ (bs : List Byte) (s : State), s.Receptive → s.block.cursor = 0 → s.block.inFrame = true → bs.length = 14 →
    START ∉ bs → END ∉ bs.take 13 →
    ∃ t, runOps (bs.map .rxb ++ [.eval]) s = .next t ∧ t.log = s.log ++ [.frameResult .malformed] ∧
      t.block.cursor = 0 ∧ t.block.fvalid = false ∧ t.frameBytes = bs

/-! ### FEED1, FEED, STREAM and sequences -/

/-- R74: `FEED` is a drain, one RXB after another while the source has a byte and `cursor < BUF_CAP`, then one EVAL;
the bytes not taken stay in the source, in order. -/
def Obligations.FeedDrainsThenEvaluates : Prop :=
  ∀ (bs : List Byte) (s : State), s.cfg.transport = .serial →
    ∃ (k : Nat) (u t : State), k ≤ (s.source ++ bs).length ∧
      runOps (((s.source ++ bs).take k).map .rxb) { s with source := [] } = .next u ∧
      (∀ j v, j < k → runOps (((s.source ++ bs).take j).map .rxb) { s with source := [] } = .next v →
        v.block.cursor < v.cfg.bufCap) ∧
      (k < (s.source ++ bs).length → u.cfg.bufCap ≤ u.block.cursor) ∧
      exec .eval { u with source := (s.source ++ bs).drop k } = .next t ∧ exec (.feed bs) s = .next t

/-- R74: FEED is not atomic. While a byte is on offer and there is room its step is the RXB of the first held byte, and
the FEED goes on with the others; else its step is the EVAL, and the FEED is over. Its steps together, one for each RXB
and one for the EVAL, do what `exec` says that the whole FEED does. How the rest of a FEED stands in the schedule is the
model's (log 13). -/
def Obligations.FeedItemRunsOneOperationAStep : Prop :=
  ∀ (bs : List Byte) (s : State) (it : Item) (rest : List Item), s.pending = it :: rest → decode it = .ok (.feed bs) →
    (∀ b q, s.cfg.transport = .serial → s.source ++ bs = b :: q → s.block.cursor < s.cfg.bufCap →
      ∃ t, exec (.rxb b) { s with source := [], pending := ⟨.pseudoFeed, []⟩ :: rest } = .next t ∧
        step s = .next { t with source := q }) ∧
    (s.cfg.transport = .serial → s.source ++ bs = [] ∨ s.cfg.bufCap ≤ s.block.cursor →
      ∃ t, exec .eval { s with source := s.source ++ bs, pending := rest } = .next t ∧ step s = .next t) ∧
    (s.cfg.transport = .altStub → ∃ t, exec .eval { s with pending := rest } = .next t ∧ step s = .next t) ∧
    ∃ (k : Nat) (t : State), t.pending = rest ∧ k + t.source.length = ((s.deliver bs).source).length ∧
      runSteps (k + 1) s = .next t ∧ exec (.feed bs) { s with pending := rest } = .next t

/-- R54: STREAM is one FEED1 a step, and its steps together do what `exec` says that the whole STREAM does. An empty
STREAM is no operation: that its item is taken from the schedule in a step that changes nothing else is the model's
choice (log 13). -/
def Obligations.StreamItemRunsOneFeedAStep : Prop :=
  ∀ (bs : List Byte) (s : State) (it : Item) (rest : List Item), s.pending = it :: rest → decode it = .ok (.stream bs) →
    (bs = [] → step s = .next { s with pending := rest }) ∧
    (∀ b c cs, bs = b :: c :: cs → ∃ t, exec (.feed1 b) { s with pending := ⟨.pseudoStream, c :: cs⟩ :: rest } = .next t ∧
      step s = .next t) ∧
    (∀ b, bs = [b] → ∃ t, exec (.feed1 b) { s with pending := rest } = .next t ∧ step s = .next t) ∧
    ∃ t, t.pending = rest ∧ runSteps (max 1 bs.length) s = .next t ∧ exec (.stream bs) { s with pending := rest } = .next t

/-- R75 (ii): a FEED that leaves bytes in the source returns OVERRUN and resets the cursor, so the next one can take
them. -/
def Obligations.FeedThatStallsReportsOverrun : Prop :=
  ∀ (bs : List Byte) (s : State), s.cfg.transport = .serial → ∃ t, exec (.feed bs) s = .next t ∧
    (t.source ≠ [] → t.log = s.log ++ [.frameResult .overrun] ∧ t.block.cursor = 0 ∧ t.rxReady = true)

/-- R54: `STREAM` is one FEED1 after another and always completes; a FEED1 is a FEED of one byte. -/
def Obligations.StreamIsOneFeedPerByte : Prop :=
  (∀ (bs : List Byte) (s : State), ∃ t, exec (.stream bs) s = .next t ∧ runOps (bs.map .feed1) s = .next t) ∧
    ∀ (b : Byte) (s : State), s.source = [] → exec (.feed1 b) s = exec (.feed [b]) s

/-- R77 (i): byte-at-a-time feeding returns one result for each byte, OVERRUN never occurs, and the value of `BUF_CAP`
has no effect. With bytes already held, and with the stub transport, which bytes are received is the model's choice
(logs 7, 9). -/
def Obligations.StreamNeverOverruns : Prop :=
  ∀ (bs : List Byte) (s : State) (n : Nat) (h : 15 ≤ n), s.block.cursor < 14 →
    ∃ t rs, exec (.stream bs) s = .next t ∧ t.log = s.log ++ rs ∧ rs.length = bs.length ∧
      (.frameResult .overrun) ∉ rs ∧ t.block.cursor < 14 ∧
      exec (.stream bs) { s with cfg := ⟨n, h, s.cfg.transport⟩ } = .next { t with cfg := ⟨n, h, s.cfg.transport⟩ }

/-- R77 (ii): byte at a time, the EVAL after a byte returns VALID if and only if that byte and the thirteen before it
are a well-formed frame, so every well-formed frame of the stream is reported exactly once, at its END byte. -/
def Obligations.StreamReportsExactlyTheWellFormedFrames : Prop :=
  ∀ (bs : List Byte) (s : State), s.Receptive → s.block.cursor = 0 → s.block.inFrame = false →
    ∃ t rs, exec (.stream bs) s = .next t ∧ t.log = s.log ++ rs ∧ rs.length = bs.length ∧
      ∀ j, j < bs.length →
        (rs[j]? = some (.frameResult .valid) ↔ 13 ≤ j ∧ frameOk ((bs.drop (j - 13)).take 14) = true)

/-- R76: two schedules of EVALs over the same bytes, each with an EVAL after every RXB that leaves `cursor >= 14`, give
the same results but for INCOMPLETEs and the same final state of the block. The premise asks for an EVAL after the last
byte of the run too, which the rule's words leave out (log 23). -/
def Obligations.PromptSchedulesAgree : Prop :=
  ∀ (s : State) (x y : List (Byte × Nat)), s.Receptive → s.block.cursor < 14 → x.map Prod.fst = y.map Prod.fst →
    Prompt x s → Prompt y s →
    ∃ t u, runOps (scheduleOps x) s = .next t ∧ runOps (scheduleOps y) s = .next u ∧ t.block = u.block ∧
      t.log.filter Result.reported = u.log.filter Result.reported

/-- R79: recovery. From every state in which RXB is enabled, a START, twelve hex digits and an END, with any number of
EVALs between them, end in VALID with exactly that frame captured. The inserted EVALs stand before the END, since the
first one after it is the one that returns VALID (log 23). -/
def Obligations.DecoderRecoversOnTheNextFrame : Prop :=
  ∀ (s : State) (sched : List (Byte × Nat)) (hs : List Byte), s.Receptive → sched.map Prod.fst = START :: hs →
    hs.length = 12 → (∀ h ∈ hs, isHex h = true) →
    ∃ t, runOps (scheduleOps sched ++ [.rxb END, .eval]) s = .next t ∧
      t.log = s.log ++ List.replicate (sched.map Prod.snd).sum (.frameResult .incomplete) ++ [.frameResult .valid] ∧
      t.frameBytes = START :: hs ++ [END] ∧ t.block.fvalid = true

/-- R78 (i): two well-formed frames back to back. One FEED reports the second alone; byte at a time both are
reported. -/
def Obligations.BackToBackFramesInOneFeedLoseTheFirst : Prop :=
  ∀ (s : State) (f g : List Byte), s.Receptive → frameOk f = true → frameOk g = true →
    (∃ t, exec (.feed (f ++ g)) s = .next t ∧ t.log = s.log ++ [.frameResult .valid] ∧ t.frameBytes = g) ∧
    ∃ u, exec (.stream (f ++ g)) s = .next u ∧ u.frameBytes = g ∧
      u.log = s.log ++ List.replicate 13 (.frameResult .incomplete) ++ [.frameResult .valid]
        ++ List.replicate 13 (.frameResult .incomplete) ++ [.frameResult .valid]

/-! ### XTR and the data formats -/

/-- R83, R84, R85: on a valid frame XTR returns the five identifier bytes, each `hexval(high) * 16 + hexval(low)` of
its pair, their XOR, and the sixth pair; it writes no state. -/
def Obligations.XtrDecodesThePairsOfAValidFrame : Prop :=
  ∀ s : State, s.block.fvalid = true → frameOk s.frameBytes = true →
    ∃ card csum p6, exec .xtr s = .next { s with log := s.log ++ [.extraction (.ok card csum p6)] } ∧
      card.c0.toNat = digitValue (s.frameByte 1) * 16 + digitValue (s.frameByte 2) ∧
      card.c1.toNat = digitValue (s.frameByte 3) * 16 + digitValue (s.frameByte 4) ∧
      card.c2.toNat = digitValue (s.frameByte 5) * 16 + digitValue (s.frameByte 6) ∧
      card.c3.toNat = digitValue (s.frameByte 7) * 16 + digitValue (s.frameByte 8) ∧
      card.c4.toNat = digitValue (s.frameByte 9) * 16 + digitValue (s.frameByte 10) ∧
      csum = card.c0 ^^^ card.c1 ^^^ card.c2 ^^^ card.c3 ^^^ card.c4 ∧
      p6.toNat = digitValue (s.frameByte 11) * 16 + digitValue (s.frameByte 12) ∧
      extract s.frameBytes true = some (.ok card csum p6)

/-- R87, R99: extraction on a frame not marked valid returns the bare failure, whatever the bytes. That the lines `card`,
`csum` and `p6`, whose value R87 leaves unspecified, have no value at all is the model's reading (log 20). -/
def Obligations.XtrOnAnInvalidFrameIsXerr : Prop :=
  ∀ s : State, s.block.fvalid = false →
    exec .xtr s = .next { s with log := s.log ++ [.extraction .xerr] } ∧
      s.xstPort = true ∧ s.cardPort = none ∧ s.csumPort = none ∧ s.p6Port = none

/-- R82, R95: XTR completes in every state, writes nothing but the host's record of its answer, and `XST = 1` exactly
when `FVALID = 0`. -/
def Obligations.XtrStatusIsTheValidityFlag : Prop :=
  ∀ s : State, ∃ x, exec .xtr s = .next { s with log := s.log ++ [.extraction x] } ∧ x = s.extractor ∧
    (x.xst = true ↔ s.block.fvalid = false)

/-- R21, its first clause: the extractor's outputs are a function of `(FRAME, FVALID)` alone; nothing of `buf`, `cursor`,
`in_frame` or the environment enters them. When they change is `ExtractorChangesOnlyAtAJudgement`. -/
def Obligations.ExtractorReadsTheFrameAlone : Prop :=
  ∀ s t : State, (∀ i, i < 14 → s.frameByte i = t.frameByte i) → s.block.fvalid = t.block.fvalid →
    s.extractor = t.extractor

/-- R92: the extractor's outputs are constant over every RXB, XTR, idle step and EVAL that returns INCOMPLETE; VALID
makes `XST = 0`, MALFORMED and OVERRUN make `XST = 1`. -/
def Obligations.ExtractorChangesOnlyAtAJudgement : Prop :=
  (∀ (i : Instr) (s t : State), (∃ b, offeredByte i = some b) ∨ i = .xtr ∨ i = .idle ∨ (i = .eval ∧ s.block.cursor < 14) →
      exec i s = .next t → t.extractor = s.extractor) ∧
    ∀ (s t : State) (r : FrameResult), exec .eval s = .next t → t.log = s.log ++ [.frameResult r] →
      (r = .valid → t.xstPort = false) ∧ (r = .malformed ∨ r = .overrun → t.xstPort = true) ∧
        (r = .incomplete → t.extractor = s.extractor)

/-- R45, R46: `hexval` subtracts 0x30 from '0' to '9' and 0x37 from 'A' to 'F', and has no value on any other byte. -/
def Obligations.HexvalIsDefinedOnTheHexDigits : Prop :=
  ∀ c : Byte, (isHex c = true ↔ (0x30 ≤ c.toNat ∧ c.toNat ≤ 0x39) ∨ (0x41 ≤ c.toNat ∧ c.toNat ≤ 0x46)) ∧
    (0x30 ≤ c.toNat → c.toNat ≤ 0x39 → hexval c = some (BitVec.ofNat 4 (c.toNat - 0x30))) ∧
    (0x41 ≤ c.toNat → c.toNat ≤ 0x46 → hexval c = some (BitVec.ofNat 4 (c.toNat - 0x37))) ∧
    (isHex c = false → hexval c = none)

/-- R49: a hex pair assembles to `hexval(h) * 16 + hexval(l)`; that the PAIR row returns it to the host is the model's
choice (log 12). -/
def Obligations.PairAssemblesHighTimesSixteenPlusLow : Prop :=
  ∀ (h l : Byte) (s : State), isHex h = true → isHex l = true →
    ∃ v, pairval h l = some v ∧ v.toNat = digitValue h * 16 + digitValue l ∧
      exec (.pair h l) s = .next { s with log := s.log ++ [.pairValue v] }

/-- U1 and logs 11, 12: outside the hex digits `pairval` has no value; the PAIR row still completes, and nothing is said
of the byte it returns. -/
def Obligations.PairOutsideTheDigitsHasNoValue : Prop :=
  ∀ (h l : Byte) (s : State), isHex h = false ∨ isHex l = false →
    pairval h l = none ∧ ∃ v, exec (.pair h l) s = .next { s with log := s.log ++ [.pairValue v] }

/-- R41, R68: a 14-byte wire frame is legal exactly when byte 0 is START, byte 13 is END and bytes 1 to 12 are hex
digits; that the FRAME row returns this judgement to the host is the model's choice (log 12). -/
def Obligations.WireFrameIsJudgedByteByByte : Prop :=
  ∀ (raw : List Byte) (s : State), raw.length = 14 →
    ∃ ok, exec (.frame raw) s = .next { s with log := s.log ++ [.wireFrame ok] } ∧
      (ok = true ↔ raw[0]? = some START ∧ raw[13]? = some END ∧
        ∀ (i : Nat) (c : Byte), 1 ≤ i → i ≤ 12 → raw[i]? = some c → isHex c = true)

/-! ### The machine as a whole -/

/-- R93: no condition stops the block. RST, EVAL and XTR are enabled in every state, and RXB is where `cursor < BUF_CAP`;
that every row completes in every state, without a fault and without a refusal, rests besides on choices of the model:
an RXB row at `cursor = BUF_CAP` is a step in which the byte is held (log 6), an RXB row with the stub transport, where
R7 enables no RXB, is one in which the byte is dropped (log 9), a pair outside the hex digits, in XTR or
PAIR, completes with a free value (log 11), and the data formats FRAME and PAIR return a value to the host (log 12). -/
def Obligations.EveryOperationCompletes : Prop :=
  ∀ (i : Instr) (s : State), ∃ t, exec i s = .next t

/-- R25: who writes what. -/
def Obligations.WriteAccessTable : Prop :=
  (∀ (offer : Option Byte) (ev : Bool) (s t : State), exec (.rst offer ev) s = .next t →
      t.block.cursor = 0 ∧ t.block.inFrame = false ∧ t.block.fvalid = false) ∧
    (∀ (i : Instr) (b : Byte) (s t : State), offeredByte i = some b → exec i s = .next t →
      (∀ a, a ≠ 0 → a ≠ s.block.cursor → t.bufByte a = s.bufByte a) ∧ s.SameFrame t) ∧
    (∀ s t : State, exec .eval s = .next t →
      t.block.cursor = (if 14 ≤ s.block.cursor then 0 else s.block.cursor) ∧
      t.block.inFrame = s.block.inFrame ∧ (∀ a, t.bufByte a = s.bufByte a) ∧
      (s.block.cursor = 14 → ∀ i, i < 14 → t.frameByte i = s.bufByte i) ∧
      (s.block.cursor ≠ 14 → ∀ i, t.frameByte i = s.frameByte i) ∧
      (s.block.cursor < 14 → t.block.fvalid = s.block.fvalid)) ∧
    ∀ s t : State, exec .xtr s = .next t → t.block = s.block

/-- R26 (a) to (f) are invariants: every step keeps them, from every state that has them. -/
def Obligations.EveryStepKeepsTheInvariants : Prop :=
  ∀ s t : State, s.Inv → step s = .next t → t.Inv

/-- The state after reset has the invariants of R26, for every choice of the parameters. -/
def Obligations.ResetHasTheInvariants : Prop :=
  State.reset.Inv ∧ ∀ c : Config, (State.resetWith c).Inv

/-- Every step keeps the two index spaces in canonical form and inside their ranges (R30, R35; the form is the model's,
log 3). -/
def Obligations.EveryStepKeepsTheMemoriesCanonical : Prop :=
  ∀ s t : State, s.Canonical → step s = .next t → t.Canonical

/-- The state after reset has both index spaces in canonical form. -/
def Obligations.ResetMemoriesAreCanonical : Prop :=
  State.reset.Canonical ∧ ∀ c : Config, (State.resetWith c).Canonical

/-- R111: `BUF_CAP` and `TRANSPORT` cannot be changed at run time. -/
def Obligations.NoStepChangesTheParameters : Prop :=
  ∀ s t : State, step s = .next t → t.cfg = s.cfg

/-- R8: `CW = ceil(log2(BUF_CAP + 1))` bits hold every value 0 to `BUF_CAP` and no smaller width does; the formula gives
5 bits for `BUF_CAP` 16 to 31, and 4 bits for 15, where the rule's parenthesis says 5 (log 23). -/
def Obligations.CursorWidthHoldsEveryCursor : Prop :=
  ∀ c : Config, (∀ n, n ≤ c.bufCap → n < 2 ^ c.cursorWidth) ∧
    (∀ w, (∀ n, n ≤ c.bufCap → n < 2 ^ w) → c.cursorWidth ≤ w) ∧
    (16 ≤ c.bufCap → c.bufCap ≤ 31 → c.cursorWidth = 5) ∧ (c.bufCap = 15 → c.cursorWidth = 4)

/-- The port layout of R28: `FRAME[i]` in bits `8*(13-i)+7` down to `8*(13-i)` of `frame`, and `CARD[0]` to `CARD[4]` in
bits 39:32 down to 7:0 of `card` while `xst = 0`. -/
def Obligations.PortsCarryTheFirstByteHighest : Prop :=
  (∀ (s : State) (i : Nat), i < 14 → s.framePort.extractLsb' (8 * (13 - i)) 8 = s.frameByte i) ∧
    ∀ (s : State) (c : CardId) (x p : Byte), s.extractor = .ok c x p → s.xstPort = false ∧ s.csumPort = some x ∧
      s.p6Port = some p ∧ ∃ v, s.cardPort = some v ∧ v.extractLsb' 32 8 = c.c0 ∧ v.extractLsb' 24 8 = c.c1 ∧
        v.extractLsb' 16 8 = c.c2 ∧ v.extractLsb' 8 8 = c.c3 ∧ v.extractLsb' 0 8 = c.c4
end

