-- ==== Sys2Proof/Laws/Memory.lean ====
section
/-! SUPPORT. The laws of an index space: a read after a write, the frame of a write, and the canonical form, which
every memory operation keeps. -/

namespace Sys2Proof.Machine

@[simp] theorem Memory.read_nil (a : Nat) : Memory.read [] a = none := rfl

@[simp] theorem Memory.read_write_same (m : Memory) (a : Nat) (v : Byte) : (m.write a v).read a = some v := by
  induction m with
  | nil => simp [Memory.write, Memory.read]
  | cons c m ih =>
    obtain ⟨k, b⟩ := c
    simp only [Memory.write]
    split
    · simp [Memory.read]
    · split
      · simp [Memory.read]
      · next h => simp [Memory.read, Ne.symm h, ih]

theorem Memory.read_write_other (m : Memory) {a i : Nat} (v : Byte) (h : i ≠ a) : (m.write a v).read i = m.read i := by
  induction m with
  | nil => simp [Memory.write, Memory.read, Ne.symm h]
  | cons c m ih =>
    obtain ⟨k, b⟩ := c
    simp only [Memory.write]
    split
    · simp [Memory.read, Ne.symm h]
    · split
      · next hk => subst hk; simp [Memory.read, Ne.symm h]
      · simp only [Memory.read]; split
        · rfl
        · exact ih

/-- A read after a write, in one line. -/
theorem Memory.read_write (m : Memory) (a i : Nat) (v : Byte) :
    (m.write a v).read i = if i = a then some v else m.read i := by
  split
  · next h => subst h; exact m.read_write_same i v
  · next h => exact m.read_write_other v h

theorem Memory.mem_write {m : Memory} {a : Nat} {v : Byte} {c : Host.Cell} (h : c ∈ m.write a v) :
    c = (a, v) ∨ c ∈ m := by
  induction m with
  | nil => simpa [Memory.write] using h
  | cons d m ih =>
    obtain ⟨k, b⟩ := d
    simp only [Memory.write] at h
    split at h
    · simpa using h
    · split at h
      · rcases List.mem_cons.mp h with h | h
        · exact .inl h
        · exact .inr (List.mem_cons_of_mem _ h)
      · rcases List.mem_cons.mp h with h | h
        · exact .inr (by simp [h])
        · exact (ih h).imp id (List.mem_cons_of_mem _)

/-- A write keeps the canonical form. -/
theorem Memory.wf_write {m : Memory} (h : m.wf) (a : Nat) (v : Byte) : (m.write a v).wf := by
  induction m with
  | nil => simp [Memory.write, Memory.wf]
  | cons d m ih =>
    obtain ⟨k, b⟩ := d
    obtain ⟨hk, hm⟩ := List.pairwise_cons.mp h
    simp only [Memory.write]
    split
    · next hlt =>
      refine List.pairwise_cons.mpr ⟨fun c hc => ?_, h⟩
      rcases List.mem_cons.mp hc with rfl | hc
      · exact hlt
      · exact Nat.lt_trans hlt (hk c hc)
    · next hge =>
      split
      · next he => subst he; exact List.pairwise_cons.mpr ⟨hk, hm⟩
      · next hne =>
        refine List.pairwise_cons.mpr ⟨fun c hc => ?_, ih hm⟩
        rcases Memory.mem_write hc with rfl | hc
        · show k < a; omega
        · exact hk c hc

theorem Memory.wf_nil : Memory.wf [] := List.Pairwise.nil

theorem Memory.wf_writeBytes {m : Memory} (h : m.wf) (vs : List Byte) (a : Nat) : (m.writeBytes a vs).wf := by
  induction vs generalizing m a with
  | nil => exact h
  | cons v vs ih => exact ih (Memory.wf_write h a v) (a + 1)

/-- A read after a write of several bytes: inside the written range the byte written, elsewhere what was there. -/
theorem Memory.read_writeBytes (vs : List Byte) (m : Memory) (a i : Nat) :
    (m.writeBytes a vs).read i = if h : a ≤ i ∧ i < a + vs.length then some (vs[i - a]'(by omega)) else m.read i := by
  induction vs generalizing m a with
  | nil => simp [Memory.writeBytes]
  | cons v vs ih =>
    rw [Memory.writeBytes, ih, Memory.read_write]
    by_cases hi : i = a
    · subst hi; simp
    · by_cases h1 : a + 1 ≤ i ∧ i < a + 1 + vs.length
      · have h2 : a ≤ i ∧ i < a + (v :: vs).length := by simp; omega
        rw [dif_pos h1, dif_pos h2]
        have : i - a = (i - (a + 1)) + 1 := by omega
        simp [this]
      · have h2 : ¬(a ≤ i ∧ i < a + (v :: vs).length) := by simp; omega
        rw [dif_neg h1, dif_neg h2, if_neg hi]

end Sys2Proof.Machine
end

