-- ==== Sys2Proof/Laws/Operands.lean ====
section
/-! SUPPORT. What the operand forms give: `hexval` byte by byte, and the decoded pairs of a well-formed frame. -/

namespace Sys2Proof.Machine

theorem hexval_isSome (c : Byte) : (hexval c).isSome = isHex c := by
  unfold hexval isHex
  by_cases h1 : 0x30#8 ≤ c ∧ c ≤ 0x39#8
  · simp [h1]
  · by_cases h2 : 0x41#8 ≤ c ∧ c ≤ 0x46#8
    · rw [if_neg h1, if_pos h2]; simp [h2]
    · rw [if_neg h1, if_neg h2]; simp only [Option.isSome_none]; symm
      simp only [Bool.or_eq_false_iff, Bool.and_eq_false_iff, decide_eq_false_iff_not]
      exact ⟨not_and_or.mp h1, not_and_or.mp h2⟩

theorem isHex_start : isHex START = false := by decide
theorem isHex_end : isHex END = false := by decide

/-- `pairval` on hex digits is `hexval(h) * 16 + hexval(l)`. -/
theorem pairval_of_hexval {h l : Byte} {x y : BitVec 4} (hx : hexval h = some x) (hy : hexval l = some y) :
    pairval h l = some (x ++ y) := by
  simp [pairval, hx, hy]

theorem pairval_isSome (h l : Byte) : (pairval h l).isSome = (isHex h && isHex l) := by
  rw [← hexval_isSome, ← hexval_isSome]
  unfold pairval
  cases hexval h <;> cases hexval l <;> rfl

/-- The extractor's outputs are `extract` wherever `extract` is defined. -/
theorem extractorOutputs_of_extract {raw : List Byte} {valid : Bool} {x : ExtractResult}
    (h : extract raw valid = some x) : extractorOutputs raw valid = x := by
  unfold extract at h
  unfold extractorOutputs
  split at h
  · next hv => split at h <;> simp_all
  · next hv => simp_all

@[simp] theorem extractorOutputs_false (raw : List Byte) : extractorOutputs raw false = .xerr := rfl
@[simp] theorem extractorOutputs_true (raw : List Byte) : extractorOutputs raw true = extractOk (pairByte raw) := rfl

/-- `frame_ok`, index by index (41_evaluate.md R68). -/
theorem frameOk_iff (raw : List Byte) :
    frameOk raw = true ↔ raw.length = 14 ∧ raw[0]? = some START ∧ raw[13]? = some END
      ∧ ∀ i, 1 ≤ i → i ≤ 12 → ∀ c, raw[i]? = some c → isHex c = true := by
  simp only [frameOk, FRAME_LEN, Bool.and_eq_true, beq_iff_eq, List.all_eq_true]
  constructor
  · rintro ⟨⟨⟨h1, h2⟩, h3⟩, h4⟩
    refine ⟨h1, h2, h3, fun i hi hi' c hc => h4 c ?_⟩
    rw [List.mem_iff_getElem?]
    exact ⟨i - 1, by rw [List.getElem?_take_of_lt (by omega), List.getElem?_drop]; rw [← hc]; congr 1; omega⟩
  · rintro ⟨h1, h2, h3, h4⟩
    refine ⟨⟨⟨h1, h2⟩, h3⟩, fun c hc => ?_⟩
    obtain ⟨j, hj⟩ := List.mem_iff_getElem?.mp hc
    have hj12 : j < 12 := by
      have := (List.getElem?_eq_some_iff.mp hj).1
      simp at this; omega
    rw [List.getElem?_take_of_lt hj12, List.getElem?_drop] at hj
    exact h4 (1 + j) (by omega) (by omega) c hj

end Sys2Proof.Machine
end

