-- ==== Sys2Proof/Laws/State.lean ====
section
/-! SUPPORT. One lemma per field per update of the state, so that no later proof unfolds an update. -/

namespace Sys2Proof.Machine

@[simp] theorem State.raise_block (r : Result) (s : State) : (s.raise r).block = s.block := rfl
@[simp] theorem State.raise_cfg (r : Result) (s : State) : (s.raise r).cfg = s.cfg := rfl
@[simp] theorem State.raise_source (r : Result) (s : State) : (s.raise r).source = s.source := rfl
@[simp] theorem State.raise_pending (r : Result) (s : State) : (s.raise r).pending = s.pending := rfl
@[simp] theorem State.raise_log (r : Result) (s : State) : (s.raise r).log = s.log ++ [r] := rfl
@[simp] theorem State.raise_resets (r : Result) (s : State) : (s.raise r).resets = s.resets := rfl
@[simp] theorem State.raise_bufByte (r : Result) (s : State) (i : Nat) : (s.raise r).bufByte i = s.bufByte i := rfl
@[simp] theorem State.raise_frameByte (r : Result) (s : State) (i : Nat) : (s.raise r).frameByte i = s.frameByte i := rfl
@[simp] theorem State.raise_frameBytes (r : Result) (s : State) : (s.raise r).frameBytes = s.frameBytes := rfl
@[simp] theorem State.raise_extractor (r : Result) (s : State) : (s.raise r).extractor = s.extractor := rfl

@[simp] theorem State.resetBlock_block (s : State) : s.resetBlock.block = Block.reset := rfl
@[simp] theorem State.resetBlock_cfg (s : State) : s.resetBlock.cfg = s.cfg := rfl
@[simp] theorem State.resetBlock_source (s : State) : s.resetBlock.source = s.source := rfl
@[simp] theorem State.resetBlock_pending (s : State) : s.resetBlock.pending = s.pending := rfl
@[simp] theorem State.resetBlock_log (s : State) : s.resetBlock.log = s.log := rfl
@[simp] theorem State.resetBlock_resets (s : State) : s.resetBlock.resets = s.resets + 1 := rfl

@[simp] theorem Block.reset_cursor : Block.reset.cursor = 0 := rfl
@[simp] theorem Block.reset_inFrame : Block.reset.inFrame = false := rfl
@[simp] theorem Block.reset_buf : Block.reset.buf = [] := rfl
@[simp] theorem Block.reset_frame : Block.reset.frame = [] := rfl
@[simp] theorem Block.reset_fvalid : Block.reset.fvalid = false := rfl

@[simp] theorem State.resetWith_block (c : Config) : (State.resetWith c).block = Block.reset := rfl
@[simp] theorem State.resetWith_cfg (c : Config) : (State.resetWith c).cfg = c := rfl
@[simp] theorem State.resetWith_source (c : Config) : (State.resetWith c).source = [] := rfl
@[simp] theorem State.resetWith_pending (c : Config) : (State.resetWith c).pending = [] := rfl
@[simp] theorem State.resetWith_log (c : Config) : (State.resetWith c).log = [] := rfl

@[simp] theorem State.deliver_block (bs : List Byte) (s : State) : (s.deliver bs).block = s.block := by
  unfold State.deliver; split <;> rfl
@[simp] theorem State.deliver_cfg (bs : List Byte) (s : State) : (s.deliver bs).cfg = s.cfg := by
  unfold State.deliver; split <;> rfl
@[simp] theorem State.deliver_pending (bs : List Byte) (s : State) : (s.deliver bs).pending = s.pending := by
  unfold State.deliver; split <;> rfl
@[simp] theorem State.deliver_log (bs : List Byte) (s : State) : (s.deliver bs).log = s.log := by
  unfold State.deliver; split <;> rfl
@[simp] theorem State.deliver_resets (bs : List Byte) (s : State) : (s.deliver bs).resets = s.resets := by
  unfold State.deliver; split <;> rfl

theorem State.deliver_serial {s : State} (h : s.cfg.transport = .serial) (bs : List Byte) :
    s.deliver bs = { s with source := s.source ++ bs } := by
  simp [State.deliver, h]

theorem State.deliver_altStub {s : State} (h : s.cfg.transport = .altStub) (bs : List Byte) : s.deliver bs = s := by
  simp [State.deliver, h]

@[simp] theorem Block.capture_cursor (raw : List Byte) (k : Block) : (k.capture raw).cursor = k.cursor := rfl
@[simp] theorem Block.capture_inFrame (raw : List Byte) (k : Block) : (k.capture raw).inFrame = k.inFrame := rfl
@[simp] theorem Block.capture_buf (raw : List Byte) (k : Block) : (k.capture raw).buf = k.buf := rfl
@[simp] theorem Block.capture_frame (raw : List Byte) (k : Block) :
    (k.capture raw).frame = Memory.writeBytes [] 0 raw := rfl
@[simp] theorem Block.capture_fvalid (raw : List Byte) (k : Block) : (k.capture raw).fvalid = frameOk raw := rfl

/-- The raw bytes of `FRAME`, byte by byte. -/
theorem State.frameBytes_eq (s : State) : s.frameBytes = (List.range 14).map s.frameByte := rfl

@[simp] theorem State.frameBytes_length (s : State) : s.frameBytes.length = 14 := by
  simp [State.frameBytes_eq]

@[simp] theorem outcome_ok (s : State) : outcome (.ok s) = .next s := rfl
@[simp] theorem outcome_error (e : Fault) : outcome (.error e) = .fault e := rfl

theorem outcome_eq_next {x : Except Fault State} {t : State} : outcome x = .next t ↔ x = .ok t := by
  cases x <;> simp [outcome]

end Sys2Proof.Machine
end

