-- ==== Sys2Proof/Laws/Ops.lean ====
section
/-! SUPPORT. One lemma for each shared operation that says once everything it can do. -/

namespace Sys2Proof.Machine

theorem memWrite_ok {c : Config} {a : Nat} (h : a < c.bufCap) (v : Byte) (k : Block) :
    memWrite c a v k = .ok { k with buf := k.buf.write a v } := by
  simp [memWrite, Nat.succ_le_of_lt h]

theorem memRead_frame (c : Config) (n : Nat) (k : Block) :
    memRead c n 0 FRAME_LEN k = .ok ((List.range 14).map (Block.bufByte n k)) := by
  have := c.bufCap_ge
  have h : 0 + FRAME_LEN ≤ c.bufCap := by simp [FRAME_LEN]; omega
  rw [memRead, if_pos h]
  simp [FRAME_LEN]

/-- Everything `RXB b` can do where it is enabled (40_receive.md R60 to R64): nothing, an append, or a START. -/
theorem Block.receive_cases (c : Config) (b : Byte) (k : Block) (h : k.cursor < c.bufCap) :
    Block.receive c b k = .ok
      (if b = START then
        { k with cursor := 1, inFrame := true,
                 buf := (if k.inFrame then k.buf.write k.cursor START else k.buf).write 0 START }
       else if k.inFrame then
        { k with cursor := k.cursor + 1, inFrame := b != END, buf := k.buf.write k.cursor b }
       else k) := by
  have h0 : 0 < c.bufCap := by omega
  unfold Block.receive appendIfInFrame startIfMarker
  by_cases hf : k.inFrame = true
  · by_cases hb : b = START
    · subst hb
      simp [hf, memWrite_ok h, memWrite_ok h0, inFrameAfterStart]
    · simp [hf, hb, memWrite_ok h, inFrameAfterAppend]
  · simp only [hf]
    by_cases hb : b = START
    · subst hb
      simp [memWrite_ok h0, inFrameAfterStart]
    · simp [hb]

/-- Everything `EVAL` can do (41_evaluate.md R73). -/
theorem Block.evaluate_cases (c : Config) (n : Nat) (k : Block) :
    Block.evaluate c n k = .ok
      (if 14 < k.cursor then ({ k with cursor := 0, fvalid := false }, .overrun)
       else if k.cursor = 14 then
        ({ k with cursor := 0, frame := Memory.writeBytes [] 0 ((List.range 14).map (Block.bufByte n k)),
                  fvalid := frameOk ((List.range 14).map (Block.bufByte n k)) },
          judgement (frameOk ((List.range 14).map (Block.bufByte n k))))
       else (k, .incomplete)) := by
  unfold Block.evaluate
  by_cases h1 : 14 < k.cursor
  · simp [h1, FRAME_LEN, fvalidAfterOverrun]
  · by_cases h2 : k.cursor = 14
    · rw [memRead_frame]; simp [h2, FRAME_LEN, Block.capture, fvalidAfterJudging]
    · simp [h1, h2, FRAME_LEN]

/-- The block after `RXB b`, where RXB is enabled. -/
theorem Block.receive_isOk (c : Config) (b : Byte) (k : Block) (h : k.cursor < c.bufCap) :
    ∃ k', Block.receive c b k = .ok k' := ⟨_, Block.receive_cases c b k h⟩

/-- Everything one handshake can do (10_state.md R27): with the implemented transport, a byte held and room, the
first byte is handed over; otherwise nothing. -/
theorem State.handOver_cases (s : State) :
    (∃ b rest k, s.cfg.transport = .serial ∧ s.source = b :: rest ∧ s.block.cursor < s.cfg.bufCap ∧
        Block.receive s.cfg b s.block = .ok k ∧ s.handOver = .ok { s with block := k, source := rest }) ∨
      ((s.cfg.transport = .altStub ∨ s.source = [] ∨ s.cfg.bufCap ≤ s.block.cursor) ∧ s.handOver = .ok s) := by
  unfold State.handOver
  cases ht : s.cfg.transport with
  | altStub => right; simp
  | serial =>
    cases hs : s.source with
    | nil => right; simp
    | cons b rest =>
      by_cases hc : s.block.cursor < s.cfg.bufCap
      · left
        obtain ⟨k, hk⟩ := Block.receive_isOk s.cfg b s.block hc
        exact ⟨b, rest, k, rfl, rfl, hc, hk, by simp [State.rxReady, hc, hk]⟩
      · right
        simp [State.rxReady, hc]; omega

theorem State.handOver_front {s : State} {b : Byte} {rest : List Byte} {k : Block} (ht : s.cfg.transport = .serial)
    (hs : s.source = b :: rest) (hc : s.block.cursor < s.cfg.bufCap) (hk : Block.receive s.cfg b s.block = .ok k) :
    s.handOver = .ok { s with block := k, source := rest } := by
  simp [State.handOver, ht, hs, State.rxReady, hc, hk]

theorem State.handOver_full {s : State} (h : s.cfg.bufCap ≤ s.block.cursor) : s.handOver = .ok s := by
  rcases State.handOver_cases s with ⟨_, _, _, _, _, hc, _⟩ | ⟨_, h'⟩
  · omega
  · exact h'

theorem State.handOver_nil {s : State} (h : s.source = []) : s.handOver = .ok s := by
  rcases State.handOver_cases s with ⟨_, _, _, _, hs, _⟩ | ⟨_, h'⟩
  · simp [h] at hs
  · exact h'

theorem State.handOver_altStub {s : State} (h : s.cfg.transport = .altStub) : s.handOver = .ok s := by
  rcases State.handOver_cases s with ⟨_, _, _, hs, _⟩ | ⟨_, h'⟩
  · simp [h] at hs
  · exact h'

/-- `rx_fire` is 1 exactly where a byte is held, with the implemented transport and room (R27, R48). -/
theorem State.rxFire_iff (s : State) :
    s.rxFire = true ↔ s.cfg.transport = .serial ∧ s.source ≠ [] ∧ s.block.cursor < s.cfg.bufCap := by
  simp [State.rxFire, State.rxValid, State.rxReady, and_assoc]

/-- Without `rx_fire` a handshake changes nothing. -/
theorem State.handOver_of_no_fire {s : State} (h : s.rxFire = false) : s.handOver = .ok s := by
  rcases State.handOver_cases s with ⟨b, rest, _, ht, hs, hc, _⟩ | ⟨_, h'⟩
  · rw [(State.rxFire_iff s).mpr ⟨ht, by simp [hs], hc⟩] at h; cases h
  · exact h'

/-- `RXB b` on a machine that is ready to take the byte: only the block changes. -/
theorem State.offerByte_receptive {s : State} {b : Byte} {k : Block} (ht : s.cfg.transport = .serial)
    (hs : s.source = []) (hc : s.block.cursor < s.cfg.bufCap) (hk : Block.receive s.cfg b s.block = .ok k) :
    s.offerByte b = .ok { s with block := k } := by
  rw [State.offerByte, State.deliver_serial ht, hs]
  have h := State.handOver_front (s := { s with source := [] ++ [b] }) (b := b) (rest := []) (k := k) ht rfl hc hk
  rw [h]

/-- Everything an EVAL on the machine can do: the block takes the step, the host gets the result. -/
theorem State.evaluate_cases (s : State) :
    s.evaluate = .ok (State.raise (.frameResult
        (if 14 < s.block.cursor then .overrun
         else if s.block.cursor = 14 then judgement (frameOk ((List.range 14).map s.bufByte)) else .incomplete))
      { s with block :=
        if 14 < s.block.cursor then { s.block with cursor := 0, fvalid := false }
        else if s.block.cursor = 14 then
          { s.block with cursor := 0, frame := Memory.writeBytes [] 0 ((List.range 14).map s.bufByte),
                         fvalid := frameOk ((List.range 14).map s.bufByte) }
        else s.block }) := by
  unfold State.evaluate
  rw [Block.evaluate_cases]
  split
  · next k r h =>
    by_cases h1 : 14 < s.block.cursor
    · simp [h1] at h; obtain ⟨rfl, rfl⟩ := h; simp [h1]
    · by_cases h2 : s.block.cursor = 14
      · simp [h2] at h; obtain ⟨rfl, rfl⟩ := h; simp [h2]; rfl
      · simp [h1, h2] at h; obtain ⟨rfl, rfl⟩ := h; simp [h1, h2]
  · next h => simp at h

/-- A drain keeps whatever a handshake keeps. -/
theorem State.drainUpTo_induction {P : State → Prop} (hP : ∀ s s', P s → s.handOver = .ok s' → P s') :
    ∀ (n : Nat) (s : State), P s → ∃ s', State.drainUpTo n s = .ok s' ∧ P s' := by
  intro n
  induction n with
  | zero => intro s hs; exact ⟨s, rfl, hs⟩
  | succ n ih =>
    intro s hs
    rcases State.handOver_cases s with ⟨_, _, _, _, _, _, _, h⟩ | ⟨_, h⟩ <;>
      · rw [State.drainUpTo, h]; exact ih _ (hP _ _ hs h)

end Sys2Proof.Machine
end

