-- ==== Sys2Proof/Laws/PerInstr.lean ====
section
/-! SUPPORT. One statement for every instruction, by constructor: the item the encoder writes has the number of bytes
that its row's format has (one for BYTE8, two for STROBE3, none for the extractor, two for PAIR16, and the operand's
own number for the other three). -/

namespace Sys2Proof.Laws.ItemLength

/-- The number of bytes of the items of a format, where the format fixes one. -/
def fixedLength : Format → Option Nat
  | .byte8 => some 1
  | .strobe3 => some 2
  | .extractor => some 0
  | .pseudoFeed => none
  | .pseudoStream => none
  | .frame14 => some 14
  | .pair16 => some 2

def Statement (i : Instr) : Prop :=
  i.wellFormed = true → ∀ n, fixedLength (encode i).format = some n → (encode i).bytes.length = n

theorem rxbStart : Statement .rxbStart := by simp [Statement, encode, fixedLength]
theorem rxbEnd : Statement .rxbEnd := by simp [Statement, encode, fixedLength]
theorem rxbHex07 (d : BitVec 3) : Statement (.rxbHex07 d) := by simp [Statement, encode, fixedLength]
theorem rxbHex89 (d : BitVec 1) : Statement (.rxbHex89 d) := by simp [Statement, encode, fixedLength]
theorem rxbHexA : Statement .rxbHexA := by simp [Statement, encode, fixedLength]
theorem rxbHexBC (d : BitVec 1) : Statement (.rxbHexBC d) := by simp [Statement, encode, fixedLength]
theorem rxbHexDE (d : BitVec 1) : Statement (.rxbHexDE d) := by simp [Statement, encode, fixedLength]
theorem rxbHexF : Statement .rxbHexF := by simp [Statement, encode, fixedLength]
theorem rxbOther (b : Byte) : Statement (.rxbOther b) := by simp [Statement, encode, fixedLength]
theorem rst (offer : Option Byte) (evalStrobe : Bool) : Statement (.rst offer evalStrobe) := by
  cases offer <;> simp [Statement, encode, fixedLength]
theorem idle : Statement .idle := by simp [Statement, encode, fixedLength]
theorem rxb (data : Byte) : Statement (.rxb data) := by simp [Statement, encode, fixedLength]
theorem eval : Statement .eval := by simp [Statement, encode, fixedLength]
theorem feed1 (data : Byte) : Statement (.feed1 data) := by simp [Statement, encode, fixedLength]
theorem xtr : Statement .xtr := by simp [Statement, encode, fixedLength]
theorem feed (bytes : List Byte) : Statement (.feed bytes) := by simp [Statement, encode, fixedLength]
theorem stream (bytes : List Byte) : Statement (.stream bytes) := by simp [Statement, encode, fixedLength]
theorem frame (raw : List Byte) : Statement (.frame raw) := by
  simp [Statement, encode, fixedLength, Instr.wellFormed]
theorem pair (h l : Byte) : Statement (.pair h l) := by simp [Statement, encode, fixedLength]

end Sys2Proof.Laws.ItemLength
end

