-- ==== Sys2Proof/Laws/Run.lean ====
section
/-! SUPPORT. What one operation can do to a machine, for every instruction at once: the byte an RXB row offers, that
each shared operation completes, what every step keeps, and runs cut in two. -/

namespace Sys2Proof.Machine

/-- Every RXB row executes as the offer of its byte. -/
theorem exec_offered {i : Instr} {b : Byte} (h : offeredByte i = some b) (s : State) :
    exec i s = outcome (s.offerByte b) := by
  cases i <;> simp [offeredByte] at h <;> subst h
  case rxbHex07 d => rw [show BitVec.ofNat 8 (0x30 + d.toNat) = hex07Byte d by revert d; decide]; rfl
  case rxbHex89 d => rw [show BitVec.ofNat 8 (0x38 + d.toNat) = hex89Byte d by revert d; decide]; rfl
  case rxbHexBC d => rw [show BitVec.ofNat 8 (0x42 + d.toNat) = hexBCByte d by revert d; decide]; rfl
  case rxbHexDE d => rw [show BitVec.ofNat 8 (0x44 + d.toNat) = hexDEByte d by revert d; decide]; rfl
  all_goals rfl

theorem State.handOver_completes (s : State) : ∃ t, s.handOver = .ok t := by
  rcases s.handOver_cases with ⟨_, _, _, _, _, _, _, h⟩ | ⟨_, h⟩ <;> exact ⟨_, h⟩

theorem State.evaluate_completes (s : State) : ∃ t, s.evaluate = .ok t := ⟨_, s.evaluate_cases⟩

theorem State.offerByteEval_completes (b : Byte) (s : State) : ∃ t, s.offerByteEval b = .ok t := by
  obtain ⟨u, hu⟩ := (s.deliver [b]).handOver_completes
  rw [State.offerByteEval, State.offerByte, hu]
  exact u.evaluate_completes

theorem State.drain_completes (s : State) : ∃ t, s.drain = .ok t := by
  obtain ⟨t, h, _⟩ := State.drainUpTo_induction (P := fun _ => True) (fun _ _ _ _ => trivial) s.source.length s trivial
  exact ⟨t, h⟩

/-- A property that an RXB keeps, and that no change of the byte source disturbs, is kept by a handshake. -/
theorem State.handOver_keeps {P : State → Prop} (source : ∀ s q, P s → P { s with source := q })
    (receive : ∀ s b k, P s → s.block.cursor < s.cfg.bufCap → Block.receive s.cfg b s.block = .ok k →
      P { s with block := k }) (s t : State) (h : P s) (ht : s.handOver = .ok t) : P t := by
  rcases s.handOver_cases with ⟨b, rest, k, _, _, hc, hk, h'⟩ | ⟨_, h'⟩ <;> rw [h'] at ht <;> cases ht
  · exact source _ rest (receive s b k h hc hk)
  · exact h

/-- A property that each shared operation keeps, and that no change of the byte source or of the results disturbs,
is kept by every instruction. -/
theorem exec_keeps {P : State → Prop}
    (source : ∀ s q, P s → P { s with source := q })
    (raise : ∀ s r, P s → P (s.raise r))
    (receive : ∀ s b k, P s → s.block.cursor < s.cfg.bufCap → Block.receive s.cfg b s.block = .ok k →
      P { s with block := k })
    (evaluate : ∀ s k r, P s → Block.evaluate s.cfg s.resets s.block = .ok (k, r) → P { s with block := k })
    (reset : ∀ s, P s → P s.resetBlock) :
    ∀ (i : Instr) (s t : State), P s → exec i s = .next t → P t := by
  have deliver : ∀ s bs, P s → P (s.deliver bs) := by
    intro s bs h
    unfold State.deliver
    split
    · exact source _ _ h
    · exact h
  have hand := State.handOver_keeps source receive
  have eval : ∀ s t, P s → s.evaluate = .ok t → P t := by
    intro s t h ht
    unfold State.evaluate at ht
    split at ht
    · next hk => cases ht; exact raise _ _ (evaluate s _ _ h hk)
    · cases ht
  have offer : ∀ b s t, P s → s.offerByte b = .ok t → P t := fun b s t h ht => hand _ t (deliver s [b] h) ht
  have offerEval : ∀ b s t, P s → s.offerByteEval b = .ok t → P t := by
    intro b s t h ht
    unfold State.offerByteEval at ht
    split at ht
    · next hu => exact eval _ _ (offer b s _ h hu) ht
    · cases ht
  intro i s t h ht
  cases hb : offeredByte i with
  | some b => rw [exec_offered hb, outcome_eq_next] at ht; exact offer b s t h ht
  | none =>
    cases i <;> simp [offeredByte] at hb
    case rst offer' ev => cases ht; exact reset _ (deliver s _ h)
    case idle => cases ht; exact h
    case eval => exact eval s t h (outcome_eq_next.mp ht)
    case feed1 b => exact offerEval b s t h (outcome_eq_next.mp ht)
    case xtr => cases ht; exact raise _ _ h
    case frame raw => cases ht; exact raise _ _ h
    case pair x y => cases ht; exact raise _ _ h
    case feed bs =>
      replace ht := outcome_eq_next.mp ht
      unfold State.feedBytes at ht
      split at ht
      · next u hu =>
        obtain ⟨v, hv, hPv⟩ := State.drainUpTo_induction hand (s.deliver bs).source.length _ (deliver s bs h)
        rw [State.drain, hv] at hu
        cases hu
        exact eval _ t hPv ht
      · cases ht
    case stream bs =>
      replace ht := outcome_eq_next.mp ht
      induction bs generalizing s with
      | nil => cases ht; exact h
      | cons b bs ih =>
        unfold State.streamBytes at ht
        split at ht
        · next u hu => exact ih u (offerEval b s u h hu) ht
        · cases ht

/-- Everything the handshake of a step can do: a handshake, where the operation brings no byte, and else nothing. -/
theorem State.handshake_cases (i : Instr) (s : State) :
    (bringsNoByte i = true ∧ s.handshake i = s.handOver) ∨ (bringsNoByte i = false ∧ s.handshake i = .ok s) := by
  unfold State.handshake
  cases bringsNoByte i <;> simp

theorem State.handshake_of_no_fire (i : Instr) {s : State} (h : s.rxFire = false) : s.handshake i = .ok s := by
  rcases s.handshake_cases i with ⟨_, h'⟩ | ⟨_, h'⟩
  · rw [h', State.handOver_of_no_fire h]
  · exact h'

theorem State.issue_feed (bs : List Byte) (s : State) :
    s.issue (.feed bs) = if (s.deliver bs).rxFire then
        (.idle, { s.deliver bs with pending := ⟨.pseudoFeed, []⟩ :: (s.deliver bs).pending })
      else (.eval, s.deliver bs) := rfl

/-- Everything the issue of an operation does to the state: bytes reach the source, the schedule changes. -/
theorem State.issue_snd (i : Instr) (s : State) :
    ∃ q p, (s.issue i).2 = { s with source := q, pending := p } := by
  have deliver : ∀ bs p, ∃ q p', { s.deliver bs with pending := p } = { s with source := q, pending := p' } := by
    intro bs p
    unfold State.deliver
    split
    · exact ⟨_, _, rfl⟩
    · exact ⟨s.source, _, rfl⟩
  cases i
  case feed bs =>
    rw [State.issue_feed]
    split
    · exact deliver bs _
    · exact deliver bs (s.deliver bs).pending
  case stream bs => rcases bs with _ | ⟨b, _ | ⟨c, bs⟩⟩ <;> exact ⟨_, _, rfl⟩
  all_goals exact ⟨_, _, rfl⟩

/-- An operation that is no pseudo-operation is issued as it stands. -/
theorem State.issue_self {i : Instr} (h : ∀ bs, i ≠ .feed bs ∧ i ≠ .stream bs) (s : State) : s.issue i = (i, s) := by
  cases i
  case feed bs => exact absurd rfl (h bs).1
  case stream bs => exact absurd rfl (h bs).2
  all_goals rfl

/-- A property that each shared operation keeps, and that no change of the byte source, of the results or of the
schedule disturbs, is kept by every step. -/
theorem step_keeps {P : State → Prop} (pending : ∀ s p, P s → P { s with pending := p })
    (source : ∀ s q, P s → P { s with source := q })
    (raise : ∀ s r, P s → P (s.raise r))
    (receive : ∀ s b k, P s → s.block.cursor < s.cfg.bufCap → Block.receive s.cfg b s.block = .ok k →
      P { s with block := k })
    (evaluate : ∀ s k r, P s → Block.evaluate s.cfg s.resets s.block = .ok (k, r) → P { s with block := k })
    (reset : ∀ s, P s → P s.resetBlock) (s t : State) (h : P s) (ht : step s = .next t) : P t := by
  have shake : ∀ (i : Instr) (s u : State), P s → s.handshake i = .ok u → P u := by
    intro i s u hs hu
    rcases s.handshake_cases i with ⟨_, h'⟩ | ⟨_, h'⟩ <;> rw [h'] at hu
    · exact State.handOver_keeps source receive s u hs hu
    · cases hu; exact hs
  unfold step at ht
  split at ht
  · next i v hv =>
    have hPv : P v := by
      unfold State.fetch at hv
      split at hv
      · cases hv; exact h
      · next it rest _ =>
        split at hv
        · next j _ =>
          obtain ⟨q, p, hqp⟩ := State.issue_snd j { s with pending := rest }
          have hv2 : v = (State.issue j { s with pending := rest }).2 := by rw [Except.ok.inj hv]
          rw [hv2, hqp]
          exact pending _ p (source s q h)
        · cases hv
    split at ht
    · next u hu => exact exec_keeps source raise receive evaluate reset i u t (shake i v u hPv hu) ht
    · cases ht
  · cases ht

/-- A run of two traces, one after the other, where the first completes. -/
theorem runOps_append {xs ys : List Instr} {s t : State} (h : runOps xs s = .next t) :
    runOps (xs ++ ys) s = runOps ys t := by
  induction xs generalizing s with
  | nil => cases h; rfl
  | cons i is ih =>
    rw [List.cons_append, runOps]
    rw [runOps] at h
    split at h
    · exact ih h
    · cases h
    · cases h

/-- After a capture, a byte of `FRAME` reads as the byte captured. -/
theorem Block.frameByte_capture {k : Block} {raw : List Byte} (hk : k.frame = Memory.writeBytes [] 0 raw) (n : Nat)
    {i : Nat} (hi : i < raw.length) : k.frameByte n i = raw[i] := by
  simp [Block.frameByte, hk, Memory.read_writeBytes, hi]

end Sys2Proof.Machine
end

