-- ==== Sys2Proof/Tests/Slice0.lean ====
section
/-! SUPPORT. Tests. Words are written out bit by bit from 30_encoding.md R41, R43, R48 and R49; the expected results
are those of 95_test_vectors.md, whose vector each comment names. Then, for every statement that has hypotheses, a
concrete state and operands that meet them. -/

namespace Sys2Proof.Tests

open Sys2Proof.Machine

/-! ### Well-formedness: each check refuses an ill-formed term -/

theorem test_wf_other_refuses_start : (Instr.rxbOther 0x02#8).wellFormed = false := by decide
theorem test_wf_other_refuses_end : (Instr.rxbOther 0x03#8).wellFormed = false := by decide
theorem test_wf_other_refuses_digits : ((Instr.rxbOther 0x30#8).wellFormed || (Instr.rxbOther 0x39#8).wellFormed) = false := by
  decide
theorem test_wf_other_refuses_letters : ((Instr.rxbOther 0x41#8).wellFormed || (Instr.rxbOther 0x46#8).wellFormed) = false := by
  decide
theorem test_wf_other_takes_neighbours :
    [0x00#8, 0x04#8, 0x2F#8, 0x3A#8, 0x40#8, 0x47#8, 0x61#8, 0x82#8, 0xB0#8, 0xC1#8, 0xFF#8].all
      (fun b => (Instr.rxbOther b).wellFormed) = true := by decide
theorem test_wf_frame_refuses_length : ((Instr.frame []).wellFormed || (Instr.frame (List.replicate 13 0x30#8)).wellFormed
    || (Instr.frame (List.replicate 15 0x30#8)).wellFormed) = false := by decide

/-! ### Decoding: a word of every row -/

/-- What an item decodes to. -/
def reads (f : Format) (bs : List Byte) : Option Instr :=
  match decode ⟨f, bs⟩ with
  | .ok i => some i
  | .error _ => none

theorem test_decode_start : reads .byte8 [0b00000010#8] = some .rxbStart := by decide
theorem test_decode_end : reads .byte8 [0b00000011#8] = some .rxbEnd := by decide
theorem test_decode_hex07 : reads .byte8 [0b00110110#8] = some (.rxbHex07 0b110#3) := by decide
theorem test_decode_hex89 : reads .byte8 [0b00111001#8] = some (.rxbHex89 0b1#1) := by decide
theorem test_decode_hexA : reads .byte8 [0b01000001#8] = some .rxbHexA := by decide
theorem test_decode_hexBC : reads .byte8 [0b01000010#8] = some (.rxbHexBC 0b0#1) := by decide
theorem test_decode_hexDE : reads .byte8 [0b01000101#8] = some (.rxbHexDE 0b1#1) := by decide
theorem test_decode_hexF : reads .byte8 [0b01000110#8] = some .rxbHexF := by decide
theorem test_decode_other : reads .byte8 [0b10110000#8] = some (.rxbOther 0b10110000#8) := by decide
theorem test_decode_rst : reads .strobe3 [0b100#8, 0x55#8] = some (.rst none false) := by decide
theorem test_decode_rst_overrides : reads .strobe3 [0b111#8, 0x55#8] = some (.rst (some 0x55#8) true) := by decide
theorem test_decode_idle : reads .strobe3 [0b000#8, 0x55#8] = some .idle := by decide
theorem test_decode_rxb : reads .strobe3 [0b010#8, 0x55#8] = some (.rxb 0x55#8) := by decide
theorem test_decode_eval : reads .strobe3 [0b001#8, 0x55#8] = some .eval := by decide
theorem test_decode_feed1 : reads .strobe3 [0b011#8, 0x55#8] = some (.feed1 0x55#8) := by decide
theorem test_decode_xtr : reads .extractor [] = some .xtr := by decide
theorem test_decode_feed : reads .pseudoFeed [0x02#8, 0x41#8] = some (.feed [0x02#8, 0x41#8]) := by decide
theorem test_decode_stream : reads .pseudoStream [0x02#8] = some (.stream [0x02#8]) := by decide
theorem test_decode_pair : reads .pair16 [0b01000001#8, 0b01000010#8] = some (.pair 0x41#8 0x42#8) := by decide
theorem test_decode_rejects : (reads .byte8 [], reads .strobe3 [0b1000#8, 0#8], reads .extractor [0#8], reads .pair16 [0x41#8],
    reads .frame14 (List.replicate 13 0x30#8)) = (none, none, none, none, none) := by decide

/-- The wire frame of vector S1. -/
def frameS1 : List Byte :=
  [0x02#8, 0x41#8, 0x42#8, 0x30#8, 0x30#8, 0x30#8, 0x30#8, 0x30#8, 0x30#8, 0x30#8, 0x30#8, 0x31#8, 0x32#8, 0x03#8]

/-- The wire frame of vector S3, with a 'G' at index 5. -/
def frameS3 : List Byte :=
  [0x02#8, 0x41#8, 0x42#8, 0x30#8, 0x30#8, 0x47#8, 0x30#8, 0x30#8, 0x30#8, 0x30#8, 0x30#8, 0x31#8, 0x32#8, 0x03#8]

/-- The wire frame of payload `3B00A1C2D3E4` (95_test_vectors.md section 2.5). -/
def frame3B : List Byte :=
  [0x02#8, 0x33#8, 0x42#8, 0x30#8, 0x30#8, 0x41#8, 0x31#8, 0x43#8, 0x32#8, 0x44#8, 0x33#8, 0x45#8, 0x34#8, 0x03#8]

theorem test_decode_frame : reads .frame14 frameS1 = some (.frame frameS1) := by decide

/-- In a table word the first byte is the least significant one. -/
theorem test_word_frame : decodeTableWord 112 0x0332313030303030303030424102 = some (.frame frameS1) := by decide
theorem test_word_pair : decodeTableWord 16 0x4241 = some (.pair 0x41#8 0x42#8) := by decide
theorem test_word_strobes : (decodeTableWord 3 0b110, decodeTableWord 8 0b001, decodeTableWord 0 0)
    = (some (.rst (some 0#8) false), some .eval, some .xtr) := by decide
theorem test_word_bytes : (decodeTableWord 8 0x02, decodeTableWord 8 0x38, decodeTableWord 8 0x47)
    = (some .rxbStart, some (.rxbHex89 0#1), some (.rxbOther 0x47#8)) := by decide

/-! ### States and outcomes -/

/-- A machine with `BUF_CAP = 16` whose block stands at this cursor and mode, with these bytes in `buf` from index 0. -/
def st (cursor : Nat) (inFrame : Bool) (bytes : List Byte) : State :=
  { State.reset with block := { Block.reset with cursor := cursor, inFrame := inFrame, buf := Memory.writeBytes [] 0 bytes } }

/-- The same with a judged frame. -/
def withFrame (raw : List Byte) (valid : Bool) (s : State) : State :=
  { s with block := { s.block with frame := Memory.writeBytes [] 0 raw, fvalid := valid } }

/-- The next state of an outcome. -/
def next? : Host.Outcome State Fault Refusal → Option State
  | .next t => some t
  | _ => none

/-- `cursor`, `in_frame` and the bytes written below index `n` of the state after. -/
def decoderAfter (n : Nat) (o : Host.Outcome State Fault Refusal) : Option (Nat × Bool × List (Option Byte)) :=
  (next? o).map (fun t => (t.block.cursor, t.block.inFrame, (List.range n).map t.block.buf.read))

/-- The results returned and the validity flag of the state after. -/
def resultsAfter (o : Host.Outcome State Fault Refusal) : Option (List Result × Bool) :=
  (next? o).map (fun t => (t.log, t.block.fvalid))

/-- Fifteen bytes: START and fourteen '1' (vectors 19, 20 of section 2.3). -/
def overlong : List Byte := 0x02#8 :: List.replicate 14 0x31#8

/-- Thirteen bytes: START and twelve '0'. -/
def thirteen : List Byte := 0x02#8 :: List.replicate 12 0x30#8

/-! ### One step of each instruction -/

/-- 2.3 vector 13, S2. -/
theorem test_start_resynchronises : decoderAfter 4 (exec .rxbStart (st 3 true [0x02#8, 0x41#8, 0x42#8]))
    = some (1, true, [some 0x02#8, some 0x41#8, some 0x42#8, some 0x02#8]) := by decide
/-- 2.3 vector 7. -/
theorem test_start_outside : decoderAfter 2 (exec .rxbStart (st 3 false [0x02#8, 0x41#8, 0x03#8]))
    = some (1, true, [some 0x02#8, some 0x41#8]) := by decide
/-- 2.3 vector 11. -/
theorem test_end_inside : decoderAfter 3 (exec .rxbEnd (st 1 true [0x02#8])) = some (2, false, [some 0x02#8, some 0x03#8, none]) := by
  decide
/-- 2.3 vector 6. -/
theorem test_end_outside : decoderAfter 3 (exec .rxbEnd (st 3 false [0x02#8, 0x41#8, 0x03#8]))
    = some (3, false, [some 0x02#8, some 0x41#8, some 0x03#8]) := by decide
/-- 2.3 vector 8. -/
theorem test_hex07_inside : decoderAfter 2 (exec (.rxbHex07 0#3) (st 1 true [0x02#8])) = some (2, true, [some 0x02#8, some 0x30#8]) := by
  decide
/-- 2.3 vector 22. -/
theorem test_hex07_headless : decoderAfter 2 (exec (.rxbHex07 6#3) (st 0 true [])) = some (1, true, [some 0x36#8, none]) := by decide
/-- R64 and the code of '9' (R41). -/
theorem test_hex89_inside : decoderAfter 2 (exec (.rxbHex89 1#1) (st 1 true [0x02#8])) = some (2, true, [some 0x02#8, some 0x39#8]) := by
  decide
/-- 2.3 vector 1. -/
theorem test_hexA_outside : decoderAfter 1 (exec .rxbHexA (st 0 false [])) = some (0, false, [none]) := by decide
/-- S1, step 2. -/
theorem test_hexA_inside : decoderAfter 2 (exec .rxbHexA (st 1 true [0x02#8])) = some (2, true, [some 0x02#8, some 0x41#8]) := by decide
/-- S2, the byte 43. -/
theorem test_hexBC_inside : decoderAfter 2 (exec (.rxbHexBC 1#1) (st 1 true [0x02#8])) = some (2, true, [some 0x02#8, some 0x43#8]) := by
  decide
/-- S2, the byte 44. -/
theorem test_hexDE_inside : decoderAfter 3 (exec (.rxbHexDE 0#1) (st 2 true [0x02#8, 0x43#8]))
    = some (3, true, [some 0x02#8, some 0x43#8, some 0x44#8]) := by decide
/-- R64 and the code of 'F' (R41). -/
theorem test_hexF_inside : decoderAfter 2 (exec .rxbHexF (st 1 true [0x02#8])) = some (2, true, [some 0x02#8, some 0x46#8]) := by decide
/-- 2.3 vector 10. -/
theorem test_other_inside : decoderAfter 2 (exec (.rxbOther 0xFF#8) (st 1 true [0x02#8])) = some (2, true, [some 0x02#8, some 0xFF#8]) := by
  decide
/-- 2.3 vector 3. -/
theorem test_other_outside : decoderAfter 1 (exec (.rxbOther 0x00#8) (st 0 false [])) = some (0, false, [none]) := by decide
/-- 2.6, first row: the flags and the cursor are 0, and no byte has a value of its own. -/
theorem test_rst : (next? (exec (.rst none false) (withFrame frameS1 true (st 7 true [0x02#8, 0x41#8])))).map State.block
    = some ⟨0, false, [], [], false⟩ := by decide
/-- 2.6, fourth row: the byte is not taken and no result is returned. -/
theorem test_rst_overrides : (next? (exec (.rst (some 0x41#8) true) (st 14 false frameS1))).map (fun t => (t.block.cursor, t.log, t.source))
    = some (0, [], [0x41#8]) := by decide
/-- 2.7, first row. -/
theorem test_idle : next? (exec .idle (st 14 false frameS1)) = some (st 14 false frameS1) := by decide
/-- R27, R48, 2.7 second and fifth row: with a byte on offer the step of an IDLE receives it, and the step of an EVAL
receives it (an END, S1 step 14) before it evaluates. -/
theorem test_steps_take_the_byte_on_offer :
    ((next? (step { st 0 true [] with source := [0x02#8, 0x41#8], pending := [encode .idle] })).map
        (fun t => (t.block.cursor, t.log, t.source)),
      (next? (step { st 13 true (frameS1.take 13) with source := [0x03#8, 0x02#8], pending := [encode .eval] })).map
        (fun t => (t.block.cursor, t.log, t.source)))
    = (some (1, [], [0x41#8]), some (0, [.frameResult .valid], [0x02#8])) := by decide
/-- 2.3 vector 20. -/
theorem test_rxb_fills_the_buffer : (next? (exec (.rxb 0x31#8) (st 15 true overlong))).map (fun t => (t.block.cursor, t.block.inFrame, t.rxReady))
    = some (16, true, false) := by decide
/-- 2.3 vector 21. -/
theorem test_rxb_held : next? (exec (.rxb 0x02#8) (st 16 true overlong)) = some { st 16 true overlong with source := [0x02#8] } := by
  decide
/-- 2.4 vector 16: `in_frame` and `FRAME` are unchanged. -/
theorem test_eval_overrun : (next? (exec .eval (withFrame frameS1 true (st 15 true overlong)))).map
      (fun t => (t.block.cursor, t.block.inFrame, t.block.fvalid, t.log, t.frameBytes))
    = some (0, true, false, [.frameResult .overrun], frameS1) := by decide
/-- 2.4 vector 8: a malformed accumulation is captured too. -/
theorem test_eval_malformed : (next? (exec .eval (st 14 false frameS3))).map (fun t => (t.block.cursor, t.block.fvalid, t.log, t.frameBytes))
    = some (0, false, [.frameResult .malformed], frameS3) := by decide
/-- S1, step 14. -/
theorem test_feed1_completes_a_frame : resultsAfter (exec (.feed1 0x03#8) (st 13 true (frameS1.take 13))) = some ([.frameResult .valid], true) := by
  decide
/-- 2.7, last row but one: at `cursor = BUF_CAP` only the EVAL executes. -/
theorem test_feed1_held : (next? (exec (.feed1 0x02#8) (st 16 true overlong))).map (fun t => (t.block.cursor, t.block.inFrame, t.log, t.source))
    = some (0, true, [.frameResult .overrun], [0x02#8]) := by decide
/-- 2.5, the row of payload `3B00A1C2D3E4`. -/
theorem test_xtr : resultsAfter (exec .xtr (withFrame frame3B true (st 0 false [])))
    = some ([.extraction (.ok ⟨0x3B#8, 0x00#8, 0xA1#8, 0xC2#8, 0xD3#8⟩ 0x8B#8 0xE4#8)], true) := by decide
/-- S5. -/
theorem test_xtr_xerr : resultsAfter (exec .xtr (withFrame frameS3 false (st 0 false []))) = some ([.extraction .xerr], false) := by decide
/-- S1 as one FEED. -/
theorem test_feed : (next? (exec (.feed frameS1) (st 0 false []))).map (fun t => (t.log, t.block.fvalid, t.frameBytes))
    = some ([.frameResult .valid], true, frameS1) := by decide
/-- P5, the first FEED with `BUF_CAP = 16`, of a source of 19 bytes: 16 are taken. -/
theorem test_feed_stalls : (next? (exec (.feed (List.replicate 4 0x31#8)) { st 0 false [] with source := overlong })).map
      (fun t => (t.block.cursor, t.block.inFrame, t.log, t.source))
    = some (0, true, [.frameResult .overrun], List.replicate 3 0x31#8) := by decide
/-- R74, and the strobes of P2 and P4: a FEED is one RXB a step and then one EVAL step, a STREAM one FEED1 a step. -/
theorem test_pseudo_operations_step :
    ([1, 2, 3].map (fun n => (next? (runSteps n { st 0 false [] with pending := [encode (.feed [0x02#8, 0x41#8])] })).map
        (fun t => (t.block.cursor, t.log, t.source)))
      = [some (1, [], [0x41#8]), some (2, [], []), some (2, [.frameResult .incomplete], [])]) ∧
    ((next? (step { st 0 false [] with pending := [encode (.stream [0x02#8, 0x41#8])] })).map
        (fun t => (t.block.cursor, t.log, t.source)) = some (1, [.frameResult .incomplete], [])) := by decide
/-- P3: a truncated frame. -/
theorem test_stream_truncated : (next? (exec (.stream [0x02#8, 0x41#8, 0x03#8, 0x42#8]) (st 0 false []))).map
      (fun t => (t.block.cursor, t.block.inFrame, t.log))
    = some (3, false, List.replicate 4 (.frameResult .incomplete)) := by decide
/-- P6: the fourteenth byte of a frame with no END gives MALFORMED and leaves `in_frame` at 1. -/
theorem test_stream_no_end : (next? (exec (.stream [0x35#8, 0x35#8, 0x36#8]) (st 12 true (0x02#8 :: List.replicate 11 0x35#8)))).map
      (fun t => (t.block.cursor, t.block.inFrame, t.log))
    = some (1, true, [.frameResult .incomplete, .frameResult .malformed, .frameResult .incomplete]) := by decide
/-- S1 and S3 as wire frames. -/
theorem test_frame : (resultsAfter (exec (.frame frameS1) (st 0 false [])), resultsAfter (exec (.frame frameS3) (st 0 false [])))
    = (some ([.wireFrame true], false), some ([.wireFrame false], false)) := by decide
/-- 2.2, the row '9','A'. -/
theorem test_pair : resultsAfter (exec (.pair 0x39#8 0x41#8) (st 0 false [])) = some ([.pairValue 0x9A#8], false) := by decide

/-! ### Witnesses: concrete states and operands that meet the hypotheses of the statements -/

theorem rcv (cursor : Nat) (f : Bool) (bytes : List Byte) (h : cursor < 16) : (st cursor f bytes).Receptive := ⟨rfl, rfl, h⟩

theorem witness_step :
    ({ st 0 false [] with pending := [encode .eval] } : State).pending = encode .eval :: [] ∧ decode (encode .eval) = .ok .eval ∧
      ({ st 0 false [] with pending := [encode .eval] } : State).rxFire = false ∧
      ({ st 0 false [] with source := [0x41#8], pending := [encode .xtr] } : State).rxFire = true ∧
      decode (encode .xtr) = .ok .xtr ∧ Instr.xtr ≠ .idle ∧ Instr.xtr ≠ .eval ∧
      (∀ bs, Instr.xtr ≠ .feed bs ∧ Instr.xtr ≠ .stream bs) ∧ (∀ bs, Instr.eval ≠ .feed bs ∧ Instr.eval ≠ .stream bs) ∧
      decodeTableWord 112 0 = some (.frame (List.replicate 14 0#8)) ∧
      ({ st 0 false [] with pending := [⟨.byte8, []⟩] } : State).pending = ⟨.byte8, []⟩ :: [] ∧
      decode ⟨.byte8, []⟩ = .error (.wrongLength .byte8 0) ∧ State.reset.pending = [] ∧
      State.reset.rxFire = false :=
  ⟨rfl, rfl, rfl, by decide, rfl, by decide, by decide, by simp, by simp, by decide, rfl, rfl, rfl, rfl⟩
theorem witness_strobes : (4 ≤ 4 ∧ 4 < 8) ∧ 4 ≤ 7 ∧ 7 < 8 := by decide
theorem witness_wellFormed : (Instr.frame frameS1).wellFormed = true ∧ (Instr.rxbOther 0x2F#8).wellFormed = true ∧
    (Instr.rst (some 0xFF#8) true).wellFormed = true := by decide
theorem witness_decoded : decode ⟨.byte8, [0xFF#8]⟩ = .ok (.rxbOther 0xFF#8) ∧ Format.byte8 ≠ Format.strobe3 ∧
    decode ⟨.strobe3, [0b100#8, 0xFF#8]⟩ = .ok (.rst none false) := ⟨rfl, by decide, rfl⟩

/-- The parameters with the stub transport. -/
def stub : Config := { Config.vectors with transport := .altStub }

theorem witness_transports : State.reset.cfg.transport = .serial ∧ (State.resetWith stub).cfg.transport = .altStub := ⟨rfl, rfl⟩
theorem witness_rst : exec (.rst none false) (st 14 false frameS1) = .next (st 14 false frameS1).resetBlock ∧
    (st 14 false frameS1).resetBlock.cfg.transport = .serial ∧ (st 14 false frameS1).resetBlock.source = [] ∧
    START ∉ [0x03#8, 0x41#8, 0xFF#8] := ⟨rfl, rfl, rfl, by decide⟩
theorem witness_dropped : offeredByte .rxbEnd = some 0x03#8 ∧ (st 15 false overlong).Receptive ∧
    (st 15 false overlong).block.inFrame = false ∧ (0x03#8 : Byte) ≠ START := ⟨rfl, rcv _ _ _ (by decide), rfl, by decide⟩
theorem witness_start : offeredByte .rxbStart = some START ∧ (st 15 true overlong).Receptive ∧
    (st 15 true overlong).block.inFrame = true ∧ (3 : Nat) ≠ 0 ∧ 3 ≠ (st 15 true overlong).block.cursor ∧
    (st 0 false []).Receptive ∧ (st 0 false []).block.inFrame = false :=
  ⟨rfl, rcv _ _ _ (by decide), rfl, by decide, by decide, rcv _ _ _ (by decide), rfl⟩
theorem witness_end : offeredByte .rxbEnd = some END ∧ (st 13 true thirteen).Receptive ∧ (st 13 true thirteen).block.inFrame = true :=
  ⟨rfl, rcv _ _ _ (by decide), rfl⟩
theorem witness_append : offeredByte (.rxbHex07 7#3) = some 0x37#8 ∧ offeredByte (.rxbOther 0xFF#8) = some 0xFF#8 ∧
    (0x37#8 : Byte) ≠ START ∧ (0x37#8 : Byte) ≠ END ∧ (0xFF#8 : Byte) ≠ START ∧ (0xFF#8 : Byte) ≠ END ∧
    (st 15 true overlong).Receptive ∧ (st 15 true overlong).block.inFrame = true :=
  ⟨by decide, rfl, by decide, by decide, by decide, by decide, rcv _ _ _ (by decide), rfl⟩
theorem witness_full : (st 16 true overlong).cfg.transport = .serial ∧ (st 16 true overlong).cfg.bufCap ≤ (st 16 true overlong).block.cursor := by
  decide

/-- A machine whose byte source holds two bytes. -/
def holding : State := { st 15 true overlong with source := [0x31#8, 0x32#8] }

theorem witness_held : offeredByte (.rxb 0x33#8) = some 0x33#8 ∧ holding.cfg.transport = .serial ∧
    holding.block.cursor < holding.cfg.bufCap ∧ holding.source = 0x31#8 :: [0x32#8] := by decide
theorem witness_on_offer : holding.cfg.transport = .serial ∧ holding.source = 0x31#8 :: [0x32#8] ∧
    holding.block.cursor < holding.cfg.bufCap ∧ holding.pending = [] ∧
    ({ holding with pending := [encode .idle] } : State).pending = encode .idle :: [] ∧ decode (encode .idle) = .ok .idle ∧
    ({ holding with pending := [encode .eval] } : State).pending = encode .eval :: [] ∧ decode (encode .eval) = .ok .eval :=
  ⟨rfl, rfl, by decide, rfl, rfl, rfl, rfl, rfl⟩
theorem witness_feed_item : ({ holding with pending := [encode (.feed [0x33#8])] } : State).pending = encode (.feed [0x33#8]) :: [] ∧
    decode (encode (.feed [0x33#8])) = .ok (.feed [0x33#8]) ∧ holding.cfg.transport = .serial ∧
    holding.source ++ [0x33#8] = 0x31#8 :: [0x32#8, 0x33#8] ∧ holding.block.cursor < holding.cfg.bufCap ∧
    decode (encode (.feed [])) = .ok (.feed []) ∧ (st 15 true overlong).source ++ [] = [] ∧
    (st 16 true overlong).cfg.bufCap ≤ (st 16 true overlong).block.cursor ∧ (State.resetWith stub).cfg.transport = .altStub :=
  ⟨rfl, rfl, rfl, rfl, by decide, rfl, rfl, by decide, rfl⟩
theorem witness_stream_item : decode (encode (.stream [])) = .ok (.stream []) ∧
    decode (encode (.stream [0x02#8])) = .ok (.stream [0x02#8]) ∧
    decode (encode (.stream [0x02#8, 0x41#8])) = .ok (.stream (0x02#8 :: 0x41#8 :: [])) := ⟨rfl, rfl, rfl⟩
theorem witness_in_frame :
    ((next? (exec .rxbStart (st 0 false []))).map (·.block.inFrame)) = some true ∧ (st 0 false []).block.inFrame = false ∧
      ((next? (exec .rxbEnd (st 13 true thirteen))).map (·.block.inFrame)) = some false ∧
      (st 13 true thirteen).block.inFrame = true ∧ (next? (exec .eval (st 14 true overlong))).isSome = true ∧
      (next? (exec .xtr (st 14 true overlong))).isSome = true := by decide
theorem witness_truncated : (st 13 false (thirteen.take 12 ++ [0x03#8])).Receptive ∧
    (st 13 false (thirteen.take 12 ++ [0x03#8])).block.inFrame = false ∧
    (st 13 false (thirteen.take 12 ++ [0x03#8])).block.cursor < 14 ∧
    ∀ i ∈ [Instr.eval, .rxbEnd, .eval], i = .eval ∨ ∃ b, offeredByte i = some b ∧ b ≠ START := by
  refine ⟨rcv _ _ _ (by decide), rfl, by decide, fun i hi => ?_⟩
  simp only [List.mem_cons, List.not_mem_nil, or_false] at hi
  rcases hi with rfl | rfl | rfl
  · exact .inl rfl
  · exact .inr ⟨0x03#8, rfl, by decide⟩
  · exact .inl rfl
theorem witness_cursor_cases : (st 13 true thirteen).block.cursor < 14 ∧ (st 14 false frameS1).block.cursor = 14 ∧
    14 < (st 15 true overlong).block.cursor ∧ (st 15 true overlong).block.cursor ≤ (st 15 true overlong).cfg.bufCap := by decide
theorem witness_result_codes : (frameOk ((List.range 14).map (st 14 false frameS1).bufByte),
    frameOk ((List.range 14).map (st 14 false frameS3).bufByte)) = (true, false) := by decide
theorem witness_headless : (st 0 true []).Receptive ∧ (st 0 true []).block.cursor = 0 ∧ (st 0 true []).block.inFrame = true ∧
    (List.replicate 13 0x36#8 ++ [END]).length = 14 ∧ START ∉ List.replicate 13 0x36#8 ++ [END] ∧
    END ∉ (List.replicate 13 0x36#8 ++ [END]).take 13 := ⟨rcv _ _ _ (by decide), rfl, rfl, rfl, by decide, by decide⟩
theorem witness_feed_stalls : (st 0 false []).cfg.transport = .serial ∧
    ((next? (exec (.feed (overlong ++ [0x31#8, 0x31#8])) (st 0 false []))).map (·.source)) = some [0x31#8] := by decide
theorem witness_stream : (15 ≤ 15 ∧ (st 13 true thirteen).block.cursor < 14) ∧ (st 0 false []).block.cursor = 0 ∧
    (st 0 false []).block.inFrame = false ∧ 13 < frameS1.length ∧ (st 0 false []).source = [] := by decide

/-- `Prompt`, computed. -/
def promptCheck : List (Byte × Nat) → State → Bool
  | [], _ => true
  | (b, n) :: rest, s =>
    match exec (.rxb b) s with
    | .next t =>
      (t.block.cursor < FRAME_LEN || 0 < n) &&
        match runOps (List.replicate n .eval) t with
        | .next u => promptCheck rest u
        | _ => true
    | _ => true

theorem prompt_of_check : ∀ (x : List (Byte × Nat)) (s : State), promptCheck x s = true → Prompt x s := by
  intro x
  induction x with
  | nil => intro s _; trivial
  | cons p rest ih =>
    obtain ⟨b, n⟩ := p
    intro s h t ht
    simp only [promptCheck, ht, Bool.and_eq_true, Bool.or_eq_true, decide_eq_true_eq] at h
    refine ⟨fun hc => h.1.resolve_left (by omega), fun u hu => ih u ?_⟩
    rw [hu] at h
    exact h.2

/-- The last two bytes of a frame, with an EVAL after each, and with one EVAL at the end. -/
theorem witness_prompt : (st 12 true (frameS1.take 12)).Receptive ∧ (st 12 true (frameS1.take 12)).block.cursor < 14 ∧
    [(0x32#8, 1), (0x03#8, 2)].map Prod.fst = [((0x32#8 : Byte), 0), (0x03#8, 1)].map Prod.fst ∧
    Prompt [(0x32#8, 1), (0x03#8, 2)] (st 12 true (frameS1.take 12)) ∧
    Prompt [(0x32#8, 0), (0x03#8, 1)] (st 12 true (frameS1.take 12)) :=
  ⟨rcv _ _ _ (by decide), by decide, rfl, prompt_of_check _ _ (by decide), prompt_of_check _ _ (by decide)⟩
theorem witness_recovery : (st 15 true overlong).Receptive ∧
    (((START, 3) :: List.replicate 12 ((0x46#8 : Byte), 1)).map Prod.fst) = START :: List.replicate 12 0x46#8 ∧
    (List.replicate 12 (0x46#8 : Byte)).length = 12 ∧ ∀ h ∈ List.replicate 12 (0x46#8 : Byte), isHex h = true :=
  ⟨rcv _ _ _ (by decide), by decide, by decide, by decide⟩
theorem witness_frames : frameOk frameS1 = true ∧ frameOk frame3B = true ∧ frameS3.length = 14 := by decide
theorem witness_xtr : (withFrame frameS1 true (st 0 false [])).block.fvalid = true ∧
    frameOk (withFrame frameS1 true (st 0 false [])).frameBytes = true ∧ State.reset.block.fvalid = false := by decide
theorem witness_same_frame : (∀ i, i < 14 → (withFrame frameS1 true (st 0 false [])).frameByte i
      = (withFrame frameS1 true (st 5 true overlong)).frameByte i) ∧
    (withFrame frameS1 true (st 0 false [])).block.fvalid = (withFrame frameS1 true (st 5 true overlong)).block.fvalid :=
  ⟨fun _ _ => rfl, rfl⟩
theorem witness_judgements : resultsAfter (exec .eval (st 14 false frameS1)) = some ([.frameResult .valid], true) ∧
    resultsAfter (exec .eval (st 14 false frameS3)) = some ([.frameResult .malformed], false) ∧
    resultsAfter (exec .eval (st 15 true overlong)) = some ([.frameResult .overrun], false) ∧
    resultsAfter (exec .eval (st 13 true thirteen)) = some ([.frameResult .incomplete], false) := by decide
theorem witness_hex : (isHex 0x30#8, isHex 0x39#8, isHex 0x41#8, isHex 0x46#8) = (true, true, true, true) ∧
    (isHex 0x2F#8, isHex 0x3A#8, isHex 0x40#8, isHex 0x47#8) = (false, false, false, false) := by decide
theorem witness_writers : (next? (exec (.rst none false) (st 14 false frameS1))).isSome = true ∧
    offeredByte .rxbStart = some START ∧ (next? (exec .rxbStart (st 3 true thirteen))).isSome = true ∧
    (2 : Nat) ≠ 0 ∧ 2 ≠ (st 3 true thirteen).block.cursor := by decide

/-- A step of a machine that has the invariants of R26: a frame in progress, one item scheduled. -/
theorem witness_invariants : ({ st 2 true [0x02#8, 0x41#8] with pending := [encode .rxbEnd] } : State).Inv ∧
    (next? (step { st 2 true [0x02#8, 0x41#8] with pending := [encode .rxbEnd] })).isSome = true := by
  refine ⟨⟨by decide, ?_, ?_, by decide, ?_, by decide⟩, by decide⟩
  · intro i h1 h2
    obtain rfl : i = 1 := by
      have : i < 2 := h2
      omega
    decide
  · intro i h
    obtain rfl : i = 0 := by
      have : i + 1 < 2 := h
      omega
    decide
  · intro i h
    have : i < 2 := h
    interval_cases i <;> decide

/-- A step of a machine whose index spaces are in canonical form. -/
theorem witness_canonical : (st 2 true [0x02#8, 0x41#8]).Canonical ∧ (next? (step (st 2 true [0x02#8, 0x41#8]))).isSome = true := by
  refine ⟨⟨by decide, List.Pairwise.nil, ?_, by intro i h; cases h⟩, by decide⟩
  intro i h
  show i < 16
  by_contra hi
  have h0 : (0 : Nat) ≠ i := by omega
  have h1 : (1 : Nat) ≠ i := by omega
  simp [st, Memory.writeBytes, Memory.write, Memory.read, h0, h1] at h
theorem witness_cursor_width : ({ stub with bufCap := 15, bufCap_ge := by decide } : Config).bufCap = 15 ∧
    16 ≤ Config.vectors.bufCap ∧ Config.vectors.bufCap ≤ 31 ∧ 31 ≤ 31 := by decide
theorem witness_ports : (withFrame frame3B true (st 0 false [])).extractor
    = .ok ⟨0x3B#8, 0x00#8, 0xA1#8, 0xC2#8, 0xD3#8⟩ 0x8B#8 0xE4#8 := by decide

end Sys2Proof.Tests
end

section
/-! The scope of the block (00_scope.md): what the stub transport leaves of each operation (R7, R75), and the width of
the cursor register (R8). -/

namespace Sys2Proof.Machine

@[simp] theorem exec_eval (s : State) : exec .eval s = outcome s.evaluate := rfl

@[simp] theorem exec_feed1 (b : Byte) (s : State) : exec (.feed1 b) s = outcome (s.offerByteEval b) := rfl

@[simp] theorem exec_feed (bs : List Byte) (s : State) : exec (.feed bs) s = outcome (s.feedBytes bs) := rfl

@[simp] theorem exec_stream (bs : List Byte) (s : State) : exec (.stream bs) s = outcome (s.streamBytes bs) := rfl

/-- A trace goes on from the state that its first operation leaves. -/
theorem runOps_cons_of_next {i : Instr} {is : List Instr} {s t : State} (h : exec i s = .next t) :
    runOps (i :: is) s = runOps is t := by
  rw [runOps, h]

/-- A stream goes on from the state that its first FEED1 leaves (30_encoding.md R54). -/
theorem State.streamBytes_cons_of_ok {b : Byte} {bs : List Byte} {s t : State} (h : s.offerByteEval b = .ok t) :
    State.streamBytes (b :: bs) s = State.streamBytes bs t := by
  rw [State.streamBytes, h]

/-- An EVAL keeps the parameters of the block (70_reset_and_hazards.md R111). -/
theorem State.evaluate_cfg {s t : State} (h : s.evaluate = .ok t) : t.cfg = s.cfg := by
  rw [State.evaluate_cases] at h
  cases h
  rfl

theorem State.offerByte_altStub {s : State} (h : s.cfg.transport = .altStub) (b : Byte) : s.offerByte b = .ok s := by
  rw [State.offerByte, State.deliver_altStub h, State.handOver_altStub h]

theorem State.offerByteEval_altStub {s : State} (h : s.cfg.transport = .altStub) (b : Byte) :
    s.offerByteEval b = s.evaluate := by
  rw [State.offerByteEval, State.offerByte_altStub h]

/-- With the stub transport a drain of any length finds no byte on offer, whatever the source is said to hold. -/
theorem State.drainUpTo_altStub {s : State} (h : s.cfg.transport = .altStub) (n : Nat) :
    State.drainUpTo n s = .ok s := by
  induction n with
  | zero => rfl
  | succ n ih => rw [State.drainUpTo, State.handOver_altStub h]; exact ih

theorem State.feedBytes_altStub {s : State} (h : s.cfg.transport = .altStub) (bs : List Byte) :
    s.feedBytes bs = s.evaluate := by
  rw [State.feedBytes, State.deliver_altStub h, State.drain, State.drainUpTo_altStub h]

/-- With the stub transport each FEED1 of a stream is an EVAL, and the EVAL leaves the transport as it is. -/
theorem streamBytes_altStub {s : State} (h : s.cfg.transport = .altStub) (bs : List Byte) :
    outcome (s.streamBytes bs) = runOps (List.replicate bs.length .eval) s := by
  induction bs generalizing s with
  | nil => rfl
  | cons b bs ih =>
    obtain ⟨t, ht⟩ := s.evaluate_completes
    have hfeed : s.offerByteEval b = .ok t := by rw [State.offerByteEval_altStub h, ht]
    have heval : exec .eval s = .next t := by rw [exec_eval, ht, outcome_ok]
    have hstub : t.cfg.transport = .altStub := by rw [State.evaluate_cfg ht, h]
    rw [State.streamBytes_cons_of_ok hfeed, List.length_cons, List.replicate_succ, runOps_cons_of_next heval]
    exact ih hstub

/-- Settles O18: with the stub transport a delivery and a handshake change nothing, so every composite is its EVALs. -/
theorem stubTransportDeliversNothing : Obligations.StubTransportDeliversNothing := by
  intro s hs
  refine ⟨fun i b hb => ?_, fun b => ?_, fun bs => ?_, fun bs => ?_⟩
  · rw [exec_offered hb, State.offerByte_altStub hs, outcome_ok]
  · rw [exec_feed1, State.offerByteEval_altStub hs, exec_eval]
  · rw [exec_feed, State.feedBytes_altStub hs, exec_eval]
  · rw [exec_stream, streamBytes_altStub hs]

end Sys2Proof.Machine

namespace Sys2Proof

/-- The formula of R8 by what it is for: the widths that suffice are those whose numbers reach beyond `BUF_CAP`. -/
theorem Config.cursorWidth_le_iff (c : Config) (w : Nat) : c.cursorWidth ≤ w ↔ c.bufCap < 2 ^ w :=
  Nat.clog_le_iff_le_pow Nat.one_lt_two

/-- The width is `w + 1` for the capacities from `2 ^ w` up to `2 ^ (w + 1) - 1`. -/
theorem Config.cursorWidth_eq_succ {c : Config} (w : Nat) (hlow : 2 ^ w ≤ c.bufCap) (hhigh : c.bufCap < 2 ^ (w + 1)) :
    c.cursorWidth = w + 1 := by
  have hle : c.cursorWidth ≤ w + 1 := (c.cursorWidth_le_iff _).mpr hhigh
  have hnot : ¬ c.cursorWidth ≤ w := fun h => absurd ((c.cursorWidth_le_iff w).mp h) (Nat.not_lt.mpr hlow)
  omega

/-- Settles O54: a width holds every cursor exactly when it is at least CW (`Config.cursorWidth_le_iff`). -/
theorem cursorWidthHoldsEveryCursor : Obligations.CursorWidthHoldsEveryCursor := by
  intro c
  refine ⟨fun n hn => ?_, fun w hw => ?_, fun hlow hhigh => ?_, fun hcap => ?_⟩
  · exact Nat.lt_of_le_of_lt hn ((c.cursorWidth_le_iff _).mp le_rfl)
  · exact (c.cursorWidth_le_iff w).mpr (hw c.bufCap le_rfl)
  · exact Config.cursorWidth_eq_succ 4 (by omega) (by omega)
  · exact Config.cursorWidth_eq_succ 3 (by omega) (by omega)

end Sys2Proof
end

section
/-! The state of the block (10_state.md): the blocks that a byte and an evaluation leave, field by field, then what each
operation writes (R25), the invariants (R26), the handshake of a step (R27) and the output ports (R28). -/

namespace Sys2Proof.Machine

/-! ### The blocks that a receive leaves -/

/-- The block after a START (40_receive.md R61, R62): where a frame was in progress the byte is appended before the new
frame begins. -/
def Block.restarted (k : Block) : Block :=
  { k with cursor := 1, inFrame := true,
           buf := (if k.inFrame then k.buf.write k.cursor START else k.buf).write 0 START }

/-- The block after the byte `b`, no START, was appended to the frame in progress (40_receive.md R63, R64). -/
def Block.appended (b : Byte) (k : Block) : Block :=
  { k with cursor := k.cursor + 1, inFrame := b != END, buf := k.buf.write k.cursor b }

@[simp] theorem Block.restarted_cursor (k : Block) : k.restarted.cursor = 1 := rfl
@[simp] theorem Block.restarted_inFrame (k : Block) : k.restarted.inFrame = true := rfl
@[simp] theorem Block.restarted_frame (k : Block) : k.restarted.frame = k.frame := rfl
@[simp] theorem Block.restarted_fvalid (k : Block) : k.restarted.fvalid = k.fvalid := rfl

@[simp] theorem Block.restarted_read_zero (k : Block) : k.restarted.buf.read 0 = some START := by
  simp [Block.restarted]

theorem Block.restarted_read_other {k : Block} {a : Nat} (h0 : a ≠ 0) (hc : a ≠ k.cursor) :
    k.restarted.buf.read a = k.buf.read a := by
  cases hf : k.inFrame <;> simp [Block.restarted, hf, Memory.read_write, h0, hc]

@[simp] theorem Block.appended_cursor (b : Byte) (k : Block) : (k.appended b).cursor = k.cursor + 1 := rfl
@[simp] theorem Block.appended_inFrame (b : Byte) (k : Block) : (k.appended b).inFrame = (b != END) := rfl
@[simp] theorem Block.appended_frame (b : Byte) (k : Block) : (k.appended b).frame = k.frame := rfl
@[simp] theorem Block.appended_fvalid (b : Byte) (k : Block) : (k.appended b).fvalid = k.fvalid := rfl

@[simp] theorem Block.appended_read_cursor (b : Byte) (k : Block) : (k.appended b).buf.read k.cursor = some b := by
  simp [Block.appended]

theorem Block.appended_read_other {k : Block} {a : Nat} (b : Byte) (hc : a ≠ k.cursor) :
    (k.appended b).buf.read a = k.buf.read a :=
  Memory.read_write_other _ b hc

/-- `Block.receive_cases` with its three outcomes told apart: a START, an append, or a byte dropped outside a frame. -/
theorem Block.receive_inv {c : Config} {b : Byte} {k k' : Block} (hc : k.cursor < c.bufCap)
    (h : Block.receive c b k = .ok k') :
    (b = START ∧ k' = k.restarted) ∨ (b ≠ START ∧ k.inFrame = true ∧ k' = k.appended b) ∨
      (b ≠ START ∧ k.inFrame = false ∧ k' = k) := by
  rw [Block.receive_cases c b k hc] at h
  obtain rfl := Except.ok.inj h
  by_cases hb : b = START
  · exact .inl ⟨hb, if_pos hb⟩
  · rw [if_neg hb]
    cases hf : k.inFrame
    · exact .inr (.inr ⟨hb, rfl, rfl⟩)
    · exact .inr (.inl ⟨hb, rfl, rfl⟩)

/-! ### The blocks that an evaluation leaves -/

/-- The fourteen bytes that an EVAL at `cursor = 14` judges (41_evaluate.md R70). -/
def Block.accumulated (n : Nat) (k : Block) : List Byte := (List.range 14).map (Block.bufByte n k)

/-- The block after an EVAL at `cursor = 14` (41_evaluate.md R70). -/
def Block.judged (n : Nat) (k : Block) : Block := { k.capture (k.accumulated n) with cursor := 0 }

/-- The block after an EVAL at `cursor > 14` (41_evaluate.md R69). -/
def Block.discarded (k : Block) : Block := { k with cursor := 0, fvalid := false }

@[simp] theorem Block.accumulated_length (n : Nat) (k : Block) : (k.accumulated n).length = 14 := by
  simp [Block.accumulated]

theorem Block.accumulated_getElem {n i : Nat} (k : Block) (h : i < (k.accumulated n).length) :
    (k.accumulated n)[i] = k.bufByte n i := by
  simp [Block.accumulated]

@[simp] theorem Block.judged_cursor (n : Nat) (k : Block) : (k.judged n).cursor = 0 := rfl
@[simp] theorem Block.judged_inFrame (n : Nat) (k : Block) : (k.judged n).inFrame = k.inFrame := rfl
@[simp] theorem Block.judged_buf (n : Nat) (k : Block) : (k.judged n).buf = k.buf := rfl
@[simp] theorem Block.judged_fvalid (n : Nat) (k : Block) : (k.judged n).fvalid = frameOk (k.accumulated n) := rfl

/-- The capture takes byte `i` of the buffer to byte `i` of `FRAME`. -/
theorem Block.judged_frameByte (n : Nat) (k : Block) {i : Nat} (h : i < 14) :
    (k.judged n).frameByte n i = k.bufByte n i := by
  have hi : i < (k.accumulated n).length := by simpa using h
  rw [Block.frameByte_capture rfl n hi, Block.accumulated_getElem]

/-- The Frame value held after the capture is the one that was judged. -/
theorem Block.judged_frameBytes (n : Nat) (k : Block) : (k.judged n).frameBytes n = k.accumulated n :=
  List.map_congr_left fun _ hi => k.judged_frameByte n (List.mem_range.mp hi)

@[simp] theorem Block.discarded_cursor (k : Block) : k.discarded.cursor = 0 := rfl
@[simp] theorem Block.discarded_inFrame (k : Block) : k.discarded.inFrame = k.inFrame := rfl
@[simp] theorem Block.discarded_buf (k : Block) : k.discarded.buf = k.buf := rfl
@[simp] theorem Block.discarded_frame (k : Block) : k.discarded.frame = k.frame := rfl
@[simp] theorem Block.discarded_fvalid (k : Block) : k.discarded.fvalid = false := rfl

/-- `Block.evaluate_cases` with its three outcomes told apart by the cursor. -/
theorem Block.evaluate_inv {c : Config} {n : Nat} {k k' : Block} {r : FrameResult}
    (h : Block.evaluate c n k = .ok (k', r)) :
    (14 < k.cursor ∧ k' = k.discarded ∧ r = .overrun) ∨
      (k.cursor = 14 ∧ k' = k.judged n ∧ r = judgement (frameOk (k.accumulated n))) ∨
      (k.cursor < 14 ∧ k' = k ∧ r = .incomplete) := by
  rw [Block.evaluate_cases] at h
  split at h
  · next hlt => cases h; exact .inl ⟨hlt, rfl, rfl⟩
  · next hle =>
    split at h
    · next heq => cases h; exact .inr (.inl ⟨heq, rfl, rfl⟩)
    · next hne => cases h; exact .inr (.inr ⟨by omega, rfl, rfl⟩)

/-- An EVAL on the machine is the block's EVAL, with its result returned to the host (41_evaluate.md R73). -/
theorem State.evaluate_inv {s t : State} (h : s.evaluate = .ok t) :
    ∃ k r, Block.evaluate s.cfg s.resets s.block = .ok (k, r) ∧
      t = State.raise (.frameResult r) { s with block := k } := by
  unfold State.evaluate at h
  split at h
  · next k r hk => exact ⟨k, r, hk, (Except.ok.inj h).symm⟩
  · cases h

/-- An EVAL with fewer than fourteen bytes accumulated only reports INCOMPLETE (41_evaluate.md R71). -/
theorem State.evaluate_of_short {s : State} (h : s.block.cursor < 14) :
    s.evaluate = .ok (s.raise (.frameResult .incomplete)) := by
  have hgt : ¬ 14 < s.block.cursor := by omega
  have hne : s.block.cursor ≠ 14 := by omega
  simp [State.evaluate_cases, hgt, hne]

/-! ### Reads of the buffer and of `FRAME` -/

theorem State.bufByte_of_read {s : State} {i : Nat} {v : Byte} (h : s.block.buf.read i = some v) : s.bufByte i = v := by
  simp [State.bufByte, Block.bufByte, h]

theorem State.bufByte_congr {s t : State} {i : Nat} (hr : t.resets = s.resets)
    (h : t.block.buf.read i = s.block.buf.read i) : t.bufByte i = s.bufByte i := by
  simp only [State.bufByte, Block.bufByte, hr, h]

theorem State.frameByte_congr {s t : State} {i : Nat} (hr : t.resets = s.resets)
    (h : t.block.frame = s.block.frame) : t.frameByte i = s.frameByte i := by
  simp only [State.frameByte, Block.frameByte, hr, h]

/-- The Frame value is its fourteen bytes (10_state.md R17, R19). -/
theorem State.frameBytes_congr {s t : State} (h : ∀ i, i < 14 → t.frameByte i = s.frameByte i) :
    t.frameBytes = s.frameBytes :=
  List.map_congr_left fun i hi => h i (List.mem_range.mp hi)

@[simp] theorem State.deliver_bufByte (bs : List Byte) (s : State) (i : Nat) : (s.deliver bs).bufByte i = s.bufByte i :=
  State.bufByte_congr (by simp) (by simp)

@[simp] theorem State.deliver_frameByte (bs : List Byte) (s : State) (i : Nat) :
    (s.deliver bs).frameByte i = s.frameByte i :=
  State.frameByte_congr (by simp) (by simp)

/-! ### Invariants -/

/-- The invariants speak of the block, its parameters and the free values alone. -/
theorem State.Inv.of_same_block {s t : State} (h : s.Inv) (hb : t.block = s.block) (hc : t.cfg = s.cfg)
    (hr : t.resets = s.resets) : t.Inv := by
  have hbuf : t.bufByte = s.bufByte := by funext i; rw [State.bufByte, State.bufByte, hb, hr]
  have hframe : t.frameBytes = s.frameBytes := by rw [State.frameBytes, State.frameBytes, hb, hr]
  obtain ⟨hcursor, hstart, hend, hlast, hwritten, hok⟩ := h
  constructor <;> simpa only [hb, hc, hbuf, hframe]

/-- With an empty accumulation the clauses of R26 about the buffer speak of no byte. -/
theorem State.Inv.of_empty {s : State} (hc : s.block.cursor = 0)
    (hf : s.block.fvalid = true → frameOk s.frameBytes = true) : s.Inv where
  cursor_le := by omega
  no_start i _ hi := by omega
  no_end i hi := by omega
  end_iff hpos := by omega
  written i hi := by omega
  frame_ok := hf

/-- A START leaves one byte accumulated, which is no END, and a frame in progress. -/
theorem State.Inv.restarted {s : State} (h : s.Inv) : ({ s with block := s.block.restarted } : State).Inv where
  cursor_le := by
    have hcap := s.cfg.bufCap_ge
    simp only [Block.restarted_cursor]
    omega
  no_start i hpos hi := by simp at hi; omega
  no_end i hi := by simp at hi
  end_iff _ := by
    have hzero : State.bufByte { s with block := s.block.restarted } 0 = START :=
      State.bufByte_of_read s.block.restarted_read_zero
    simp only [Block.restarted_cursor, Block.restarted_inFrame, Nat.sub_self, hzero]
    decide
  written i hi := by
    obtain rfl : i = 0 := by simpa using hi
    simp
  frame_ok := h.frame_ok

/-- An append inside a frame: the byte that was last until now is no END, since `in_frame` was 1 (clause (d)). -/
theorem State.Inv.appended {s : State} (h : s.Inv) {b : Byte} (hroom : s.block.cursor < s.cfg.bufCap)
    (hb : b ≠ START) (hin : s.block.inFrame = true) : ({ s with block := s.block.appended b } : State).Inv := by
  have hnew : State.bufByte { s with block := s.block.appended b } s.block.cursor = b :=
    State.bufByte_of_read (s.block.appended_read_cursor b)
  have hold : ∀ i, i < s.block.cursor → State.bufByte { s with block := s.block.appended b } i = s.bufByte i :=
    fun i hi => State.bufByte_congr rfl (Block.appended_read_other b (Nat.ne_of_lt hi))
  have hlast : 0 < s.block.cursor → s.bufByte (s.block.cursor - 1) ≠ END := fun hpos hend => by
    have hout := (h.end_iff hpos).mp hend
    simp [hin] at hout
  refine ⟨hroom, fun i hpos hi => ?_, fun i hi => ?_, fun _ => ?_, fun i hi => ?_, h.frame_ok⟩
  · rcases Nat.lt_succ_iff_lt_or_eq.mp hi with hlt | rfl
    · rw [hold i hlt]; exact h.no_start i hpos hlt
    · rw [hnew]; exact hb
  · have hlt : i < s.block.cursor := by simpa using hi
    rw [hold i hlt]
    rcases Nat.lt_or_eq_of_le (Nat.succ_le_of_lt hlt) with hbefore | hlasti
    · exact h.no_end i hbefore
    · obtain rfl : i = s.block.cursor - 1 := by omega
      exact hlast (by omega)
  · simp [hnew]
  · rcases Nat.lt_succ_iff_lt_or_eq.mp hi with hlt | rfl
    · simpa [Block.appended_read_other b (Nat.ne_of_lt hlt)] using h.written i hlt
    · simp

/-- Every RXB keeps the invariants. -/
theorem State.Inv.receive {s : State} (h : s.Inv) {b : Byte} {k : Block} (hroom : s.block.cursor < s.cfg.bufCap)
    (hk : Block.receive s.cfg b s.block = .ok k) : ({ s with block := k } : State).Inv := by
  rcases Block.receive_inv hroom hk with ⟨_, rfl⟩ | ⟨hb, hin, rfl⟩ | ⟨_, _, rfl⟩
  · exact h.restarted
  · exact h.appended hroom hb hin
  · exact h

/-- Every EVAL keeps the invariants: it empties the accumulation, with `FVALID` the judgement of the bytes it captures,
or it changes nothing. -/
theorem State.Inv.evaluate {s : State} (h : s.Inv) {k : Block} {r : FrameResult}
    (hk : Block.evaluate s.cfg s.resets s.block = .ok (k, r)) : ({ s with block := k } : State).Inv := by
  rcases Block.evaluate_inv hk with ⟨_, rfl, _⟩ | ⟨_, rfl, _⟩ | ⟨_, rfl, _⟩
  · exact State.Inv.of_empty rfl (by simp)
  · refine State.Inv.of_empty rfl fun hvalid => ?_
    rwa [State.frameBytes, Block.judged_frameBytes]
  · exact h

/-- Settles O49: the receive and the EVAL keep the invariants, an RST restores them, and nothing else of a step touches
the block. -/
theorem everyStepKeepsTheInvariants : Obligations.EveryStepKeepsTheInvariants := by
  intro s t hs ht
  exact step_keeps
    (pending := fun _ _ h => h.of_same_block rfl rfl rfl)
    (source := fun _ _ h => h.of_same_block rfl rfl rfl)
    (raise := fun _ _ h => h.of_same_block rfl rfl rfl)
    (receive := fun _ _ _ h hroom hk => h.receive hroom hk)
    (evaluate := fun _ _ _ h hk => h.evaluate hk)
    (reset := fun _ _ => State.Inv.of_empty rfl (by simp)) s t hs ht

/-- Settles O50: a reset block has an empty accumulation and `FVALID = 0`. -/
theorem resetHasTheInvariants : Obligations.ResetHasTheInvariants := by
  have hreset : ∀ c, (State.resetWith c).Inv := fun c => State.Inv.of_empty rfl (by simp)
  exact ⟨hreset Config.vectors, hreset⟩

/-! ### What each operation writes -/

@[simp] theorem exec_rst (offer : Option Byte) (ev : Bool) (s : State) :
    exec (.rst offer ev) s = .next (s.deliver offer.toList).resetBlock := rfl

@[simp] theorem exec_idle (s : State) : exec .idle s = .next s := rfl

@[simp] theorem exec_xtr (s : State) : exec .xtr s = .next (s.raise (.extraction s.extractor)) := rfl

/-- An RXB never writes `FRAME` or `FVALID` (10_state.md R25). -/
theorem Block.receive_capture {c : Config} {b : Byte} {k k' : Block} (hc : k.cursor < c.bufCap)
    (h : Block.receive c b k = .ok k') : k'.frame = k.frame ∧ k'.fvalid = k.fvalid := by
  rcases Block.receive_inv hc h with ⟨_, rfl⟩ | ⟨_, _, rfl⟩ | ⟨_, _, rfl⟩ <;> exact ⟨rfl, rfl⟩

/-- An RXB writes at most `buf[0]` and `buf[cursor]` (10_state.md R25). -/
theorem Block.receive_read_other {c : Config} {b : Byte} {k k' : Block} {a : Nat} (hc : k.cursor < c.bufCap)
    (h : Block.receive c b k = .ok k') (ha0 : a ≠ 0) (hac : a ≠ k.cursor) : k'.buf.read a = k.buf.read a := by
  rcases Block.receive_inv hc h with ⟨_, rfl⟩ | ⟨_, _, rfl⟩ | ⟨_, _, rfl⟩
  · exact Block.restarted_read_other ha0 hac
  · exact Block.appended_read_other b hac
  · rfl

/-- A handshake writes what the RXB it makes writes, and nothing where it makes none. -/
theorem State.handOver_writes {s t : State} (h : s.handOver = .ok t) :
    (∀ a, a ≠ 0 → a ≠ s.block.cursor → t.bufByte a = s.bufByte a) ∧ s.SameFrame t := by
  rcases s.handOver_cases with ⟨b, rest, k, _, _, hc, hk, h'⟩ | ⟨_, h'⟩ <;> rw [h'] at h <;> cases h
  · obtain ⟨hframe, hfvalid⟩ := Block.receive_capture hc hk
    exact ⟨fun a ha0 hac => State.bufByte_congr rfl (Block.receive_read_other hc hk ha0 hac),
      fun _ => State.frameByte_congr rfl hframe, hfvalid⟩
  · exact ⟨fun _ _ _ => rfl, fun _ => rfl, rfl⟩

/-- What an EVAL writes: all of the capture at `cursor = 14`, the cursor and `FVALID` from there on, never `in_frame` or
`buf` (10_state.md R25). -/
theorem State.evaluate_writes {s t : State} (h : s.evaluate = .ok t) :
    t.block.cursor = (if 14 ≤ s.block.cursor then 0 else s.block.cursor) ∧
      t.block.inFrame = s.block.inFrame ∧ (∀ a, t.bufByte a = s.bufByte a) ∧
      (s.block.cursor = 14 → ∀ i, i < 14 → t.frameByte i = s.bufByte i) ∧
      (s.block.cursor ≠ 14 → ∀ i, t.frameByte i = s.frameByte i) ∧
      (s.block.cursor < 14 → t.block.fvalid = s.block.fvalid) := by
  obtain ⟨k, r, hk, rfl⟩ := State.evaluate_inv h
  rcases Block.evaluate_inv hk with ⟨hc, rfl, _⟩ | ⟨hc, rfl, _⟩ | ⟨hc, rfl, _⟩
  · exact ⟨(if_pos (Nat.le_of_lt hc)).symm, rfl, fun _ => rfl, fun he => by omega, fun _ _ => rfl, fun hlt => by omega⟩
  · exact ⟨(if_pos (Nat.le_of_eq hc.symm)).symm, rfl, fun _ => rfl,
      fun _ i hi => Block.judged_frameByte s.resets s.block hi, fun hne => absurd hc hne, fun hlt => by omega⟩
  · exact ⟨(if_neg (Nat.not_le.mpr hc)).symm, rfl, fun _ => rfl, fun he => by omega, fun _ _ => rfl, fun _ => rfl⟩

/-- Settles O48: an RXB row writes what its one handshake writes, and a delivery to the byte source writes nothing of the
block. -/
theorem writeAccessTable : Obligations.WriteAccessTable := by
  refine ⟨fun offer ev s t ht => ?_, fun i b s t hb ht => ?_, fun s t ht => ?_, fun s t ht => ?_⟩
  · rw [exec_rst] at ht
    cases ht
    simp
  · rw [exec_offered hb, outcome_eq_next] at ht
    obtain ⟨hbuf, hframe, hfvalid⟩ := State.handOver_writes (s := s.deliver [b]) ht
    simp only [State.deliver_block, State.deliver_bufByte, State.deliver_frameByte] at hbuf hframe hfvalid
    exact ⟨hbuf, hframe, hfvalid⟩
  · rw [exec_eval, outcome_eq_next] at ht
    exact State.evaluate_writes ht
  · rw [exec_xtr] at ht
    cases ht
    rfl

/-- Settles O26: an EVAL leaves a cursor below 14, by what it writes, and there an EVAL only reports. -/
theorem secondEvalIsIncomplete : Obligations.SecondEvalIsIncomplete := by
  intro s
  obtain ⟨t, ht⟩ := s.evaluate_completes
  have hshort : t.block.cursor ≤ 13 := by
    obtain ⟨hcursor, _⟩ := State.evaluate_writes ht
    rw [hcursor]
    split <;> omega
  refine ⟨t, by rw [exec_eval, ht, outcome_ok], hshort, ?_⟩
  rw [exec_eval, State.evaluate_of_short (Nat.lt_succ_of_le hshort), outcome_ok]
  rfl

/-- An RXB row where RXB is enabled (40_receive.md R56): the block receives the byte and nothing else changes. -/
theorem exec_offered_receptive {i : Instr} {b : Byte} {s t : State} (hb : offeredByte i = some b) (hs : s.Receptive)
    (ht : exec i s = .next t) : ∃ k, Block.receive s.cfg b s.block = .ok k ∧ t = { s with block := k } := by
  obtain ⟨hserial, hnone, hroom⟩ := hs
  obtain ⟨k, hk⟩ := Block.receive_isOk s.cfg b s.block hroom
  rw [exec_offered hb, State.offerByte_receptive hserial hnone hroom hk] at ht
  cases ht
  exact ⟨k, hk, rfl⟩

/-- Settles O19: of the three outcomes of a receive, a START sets `in_frame`, an append clears it exactly at an END, and a
dropped byte leaves it. -/
theorem onlyMarkersChangeInFrame : Obligations.OnlyMarkersChangeInFrame := by
  refine ⟨fun i b s t hb hs ht => ?_, fun s t ht => ?_⟩
  · obtain ⟨k, hk, rfl⟩ := exec_offered_receptive hb hs ht
    rcases Block.receive_inv hs.room hk with ⟨hstart, rfl⟩ | ⟨_, hin, rfl⟩ | ⟨_, hout, rfl⟩
    · exact ⟨fun _ _ => hstart, fun _ hclear => by simp at hclear⟩
    · exact ⟨fun hout _ => by simp [hin] at hout, fun _ hclear => by simpa using hclear⟩
    · exact ⟨fun _ hset => by simp [hout] at hset, fun hin _ => by simp [hout] at hin⟩
  · rcases ht with heval | hxtr
    · obtain ⟨_, hin, _⟩ := State.evaluate_writes (outcome_eq_next.mp heval)
      exact hin
    · rw [exec_xtr] at hxtr
      cases hxtr
      rfl

/-- Settles O41: the extractor's outputs are computed from the Frame value and `FVALID`. -/
theorem extractorReadsTheFrameAlone : Obligations.ExtractorReadsTheFrameAlone := by
  intro s t hframe hfvalid
  rw [State.extractor, State.extractor, State.frameBytes_congr hframe, hfvalid]

/-! ### The handshake with bytes held -/

/-- `RXB b` on a machine whose byte source was emptied: the block receives `b`. -/
theorem exec_rxb_source_nil {s : State} {b : Byte} {k : Block} (ht : s.cfg.transport = .serial)
    (hroom : s.block.cursor < s.cfg.bufCap) (hk : Block.receive s.cfg b s.block = .ok k) :
    exec (.rxb b) { s with source := [] } = .next { s with block := k, source := [] } := by
  rw [exec_offered rfl, State.offerByte_receptive (s := { s with source := [] }) ht rfl hroom hk, outcome_ok]

/-- A byte offered while others are held waits behind them (10_state.md R27, R32; log 7). -/
theorem State.offerByte_held {s : State} {b c : Byte} {rest : List Byte} {k : Block} (ht : s.cfg.transport = .serial)
    (hs : s.source = c :: rest) (hroom : s.block.cursor < s.cfg.bufCap)
    (hk : Block.receive s.cfg c s.block = .ok k) :
    s.offerByte b = .ok { s with block := k, source := rest ++ [b] } := by
  rw [State.offerByte, State.deliver_serial ht, hs]
  exact State.handOver_front (s := { s with source := c :: rest ++ [b] }) ht rfl hroom hk

/-- Settles O17: the byte offered joins the end of the source, and the handshake hands over its first byte. -/
theorem heldBytesAreHandedOverFirst : Obligations.HeldBytesAreHandedOverFirst := by
  intro i b c rest s hb ht hroom hs
  obtain ⟨k, hk⟩ := Block.receive_isOk s.cfg c s.block hroom
  refine ⟨_, exec_rxb_source_nil ht hroom hk, ?_⟩
  rw [exec_offered hb, State.offerByte_held ht hs hroom hk, outcome_ok]

theorem State.fetch_nil {s : State} (h : s.pending = []) : s.fetch = .ok (.idle, s) := by
  rw [State.fetch, h]

theorem State.fetch_cons {s : State} {it : Item} {rest : List Item} {i : Instr} (h : s.pending = it :: rest)
    (hi : decode it = .ok i) : s.fetch = .ok (State.issue i { s with pending := rest }) := by
  simp only [State.fetch, h, hi]

/-- The step of an operation that brings no byte of its own, with a byte held and room: the first held byte is received
and the operation runs on the state that this leaves (10_state.md R27, 30_encoding.md R48). -/
theorem step_takes_held {s v : State} {i : Instr} {b : Byte} {rest : List Byte} {k : Block}
    (hfetch : s.fetch = .ok (i, v)) (hi : bringsNoByte i = true) (ht : v.cfg.transport = .serial)
    (hs : v.source = b :: rest) (hroom : v.block.cursor < v.cfg.bufCap)
    (hk : Block.receive v.cfg b v.block = .ok k) : step s = exec i { v with block := k, source := rest } := by
  have hshake : v.handshake i = .ok { v with block := k, source := rest } := by
    rw [State.handshake, if_pos hi, State.handOver_front ht hs hroom hk]
  simp only [step, hfetch, hshake]

/-- Settles O2: each of the three steps is the handshake of the first held byte, then the operation. -/
theorem stepTakesTheByteOnOffer : Obligations.StepTakesTheByteOnOffer := by
  intro s b rest ht hs hroom
  obtain ⟨k, hk⟩ := Block.receive_isOk s.cfg b s.block hroom
  refine ⟨_, exec_rxb_source_nil ht hroom hk, fun hp => ?_, fun it p hp hit => ?_, fun it p hp hit => ?_⟩
  · rw [step_takes_held (State.fetch_nil hp) rfl ht hs hroom hk, exec_idle]
  · rw [step_takes_held (State.fetch_cons hp hit) rfl ht hs hroom hk, exec_idle]
  · obtain ⟨u, hu⟩ := State.evaluate_completes { s with block := k, source := rest, pending := p }
    have heval : exec .eval { s with block := k, source := rest, pending := p } = .next u := by
      rw [exec_eval, hu, outcome_ok]
    exact ⟨u, heval, by rw [step_takes_held (State.fetch_cons hp hit) rfl ht hs hroom hk]; exact heval⟩

/-! ### The output ports -/

theorem portBits_concat (w : Nat) (bs : List Byte) (b : Byte) :
    portBits w (bs ++ [b]) = (portBits w bs <<< 8) ||| b.setWidth w := by
  simp [portBits]

/-- A byte shifted into a number of whole bytes is its lowest byte. -/
theorem extractLsb'_shift_or_zero {w : Nat} (hw : 8 ≤ w) (x : BitVec w) (b : Byte) :
    ((x <<< 8) ||| b.setWidth w).extractLsb' 0 8 = b := by
  ext j hj
  simp [hj, show j < w by omega]

/-- A byte shifted in moves every other byte one place up. -/
theorem extractLsb'_shift_or_succ {w m : Nat} (hw : 8 * (m + 1) + 8 ≤ w) (x : BitVec w) (b : Byte) :
    ((x <<< 8) ||| b.setWidth w).extractLsb' (8 * (m + 1)) 8 = x.extractLsb' (8 * m) 8 := by
  ext j hj
  have hidx : 8 * (m + 1) + j - 8 = 8 * m + j := by omega
  have hhigh : b.getLsbD (8 * (m + 1) + j) = false := BitVec.getLsbD_of_ge _ _ (by omega)
  have hlow : 8 * m + j < w := by omega
  simp [hidx, hhigh, hlow, show 8 * (m + 1) + j < w by omega, show ¬ 8 * (m + 1) + j < 8 by omega]

/-- The layout of a port (10_state.md R28): of `n` bytes the one at index `i` stands at place `n - 1 - i`, counted in
bytes from the least significant end. -/
theorem portBits_extractLsb' {w : Nat} (bs : List Byte) (hw : 8 * bs.length ≤ w) {i : Nat} (hi : i < bs.length) :
    (portBits w bs).extractLsb' (8 * (bs.length - 1 - i)) 8 = bs[i] := by
  induction bs using List.reverseRecOn with
  | nil => simp at hi
  | append_singleton bs b ih =>
    simp only [List.length_append, List.length_singleton] at hw hi
    rw [portBits_concat]
    rcases Nat.lt_succ_iff_lt_or_eq.mp hi with hlt | rfl
    · have hplace : (bs ++ [b]).length - 1 - i = (bs.length - 1 - i) + 1 := by simp; omega
      rw [hplace, extractLsb'_shift_or_succ (by omega), ih (by omega) hlt, List.getElem_append_left hlt]
    · have hplace : (bs ++ [b]).length - 1 - bs.length = 0 := by simp
      rw [hplace, Nat.mul_zero, extractLsb'_shift_or_zero (by omega), List.getElem_concat_length rfl]

/-- While the extractor answers OK, the ports `xst`, `csum`, `p6` and `card` carry its answer (10_state.md R28). -/
theorem State.ports_of_extractor_ok {s : State} {c : CardId} {x p : Byte} (h : s.extractor = .ok c x p) :
    s.xstPort = false ∧ s.csumPort = some x ∧ s.p6Port = some p ∧
      s.cardPort = some (portBits 40 [c.c0, c.c1, c.c2, c.c3, c.c4]) := by
  simp [State.xstPort, State.csumPort, State.p6Port, State.cardPort, h, ExtractResult.xst]

/-- Settles O55: both wide ports are `portBits` of their bytes. -/
theorem portsCarryTheFirstByteHighest : Obligations.PortsCarryTheFirstByteHighest := by
  refine ⟨fun s i hi => ?_, fun s c x p h => ?_⟩
  · have hbyte := portBits_extractLsb' (w := 112) s.frameBytes (by simp) (i := i) (by simpa using hi)
    simpa [State.framePort, State.frameBytes_eq] using hbyte
  · obtain ⟨hxst, hcsum, hp6, hcard⟩ := State.ports_of_extractor_ok h
    have hplace := fun i (hi : i < 5) => portBits_extractLsb' (w := 40) [c.c0, c.c1, c.c2, c.c3, c.c4] le_rfl hi
    exact ⟨hxst, hcsum, hp6, _, hcard, hplace 0 (by decide), hplace 1 (by decide), hplace 2 (by decide),
      hplace 3 (by decide), hplace 4 (by decide)⟩

end Sys2Proof.Machine
end

section
/-! The two index spaces (20_memory.md): what keeps one of them in canonical form and inside its range (R30, R35), then
that every step keeps both. -/

namespace Sys2Proof.Machine

/-! ### One index space -/

/-- An index space with the indices 0 to `n - 1`: canonical form, and no other index is listed (20_memory.md R30). -/
structure Memory.Within (n : Nat) (m : Memory) : Prop where
  wf : m.wf
  index : ∀ i, (m.read i).isSome = true → i < n

theorem Memory.within_nil (n : Nat) : Memory.Within n [] where
  wf := Memory.wf_nil
  index i hi := by simp at hi

/-- A write inside the range lists no index outside it. -/
theorem Memory.Within.write {n : Nat} {m : Memory} (h : m.Within n) {a : Nat} (ha : a < n) (v : Byte) :
    (m.write a v).Within n where
  wf := Memory.wf_write h.wf a v
  index i hi := by
    by_cases hia : i = a
    · exact hia ▸ ha
    · rw [Memory.read_write_other m v hia] at hi
      exact h.index i hi

theorem Memory.Within.writeBytes {n : Nat} {m : Memory} (h : m.Within n) {a : Nat} {vs : List Byte}
    (ha : a + vs.length ≤ n) : (m.writeBytes a vs).Within n := by
  induction vs generalizing m a with
  | nil => exact h
  | cons v vs ih =>
    rw [List.length_cons] at ha
    exact ih (h.write (by omega) v) (by omega)

/-! ### The block -/

/-- The canonical form of the machine is that of its two index spaces. -/
theorem State.canonical_iff (s : State) :
    s.Canonical ↔ s.block.buf.Within s.cfg.bufCap ∧ s.block.frame.Within FRAME_LEN := by
  constructor
  · rintro ⟨hbuf, hframe, hbufIndex, hframeIndex⟩
    exact ⟨⟨hbuf, hbufIndex⟩, ⟨hframe, hframeIndex⟩⟩
  · rintro ⟨⟨hbuf, hbufIndex⟩, ⟨hframe, hframeIndex⟩⟩
    exact ⟨hbuf, hframe, hbufIndex, hframeIndex⟩

/-- A START writes index 0 and, where a frame was in progress, the index at the cursor (40_receive.md R61, R62). -/
theorem Block.restarted_within {n : Nat} {k : Block} (h : k.buf.Within n) (hroom : k.cursor < n) :
    k.restarted.buf.Within n := by
  have hzero : 0 < n := by omega
  cases hin : k.inFrame
  · simpa [Block.restarted, hin] using h.write hzero START
  · simpa [Block.restarted, hin] using (h.write hroom START).write hzero START

/-- An RXB keeps the buffer inside its range, since it is enabled only where `cursor < BUF_CAP` (20_memory.md R35,
40_receive.md R56). -/
theorem Block.receive_within {c : Config} {b : Byte} {k k' : Block} (h : k.buf.Within c.bufCap)
    (hroom : k.cursor < c.bufCap) (hk : Block.receive c b k = .ok k') : k'.buf.Within c.bufCap := by
  rcases Block.receive_inv hroom hk with ⟨_, rfl⟩ | ⟨_, _, rfl⟩ | ⟨_, _, rfl⟩
  · exact Block.restarted_within h hroom
  · exact h.write hroom b
  · exact h

/-- An EVAL never writes the buffer (10_state.md R25). -/
theorem Block.evaluate_buf {c : Config} {n : Nat} {k k' : Block} {r : FrameResult}
    (hk : Block.evaluate c n k = .ok (k', r)) : k'.buf = k.buf := by
  rcases Block.evaluate_inv hk with ⟨_, rfl, _⟩ | ⟨_, rfl, _⟩ | ⟨_, rfl, _⟩ <;> rfl

/-- A capture lists the fourteen indices of `FRAME` and no other (41_evaluate.md R70). -/
theorem Block.judged_frame_within (n : Nat) (k : Block) : (k.judged n).frame.Within FRAME_LEN :=
  (Memory.within_nil FRAME_LEN).writeBytes (by simp [FRAME_LEN])

theorem Block.evaluate_frame_within {c : Config} {n : Nat} {k k' : Block} {r : FrameResult}
    (h : k.frame.Within FRAME_LEN) (hk : Block.evaluate c n k = .ok (k', r)) : k'.frame.Within FRAME_LEN := by
  rcases Block.evaluate_inv hk with ⟨_, rfl, _⟩ | ⟨_, rfl, _⟩ | ⟨_, rfl, _⟩
  · exact h
  · exact k.judged_frame_within n
  · exact h

/-! ### The machine -/

/-- The canonical form speaks of the block and the parameters alone. -/
theorem State.Canonical.of_same_block {s t : State} (h : s.Canonical) (hb : t.block = s.block) (hc : t.cfg = s.cfg) :
    t.Canonical := by
  rw [State.canonical_iff, hb, hc]
  exact s.canonical_iff.mp h

theorem State.canonical_of_reset {s : State} (h : s.block = Block.reset) : s.Canonical := by
  rw [State.canonical_iff, h]
  exact ⟨Memory.within_nil _, Memory.within_nil _⟩

theorem State.Canonical.receive {s : State} (h : s.Canonical) {b : Byte} {k : Block}
    (hroom : s.block.cursor < s.cfg.bufCap) (hk : Block.receive s.cfg b s.block = .ok k) :
    ({ s with block := k } : State).Canonical := by
  obtain ⟨hbuf, hframe⟩ := s.canonical_iff.mp h
  obtain ⟨hsame, _⟩ := Block.receive_capture hroom hk
  exact (State.canonical_iff _).mpr ⟨Block.receive_within hbuf hroom hk, hsame ▸ hframe⟩

theorem State.Canonical.evaluate {s : State} (h : s.Canonical) {k : Block} {r : FrameResult}
    (hk : Block.evaluate s.cfg s.resets s.block = .ok (k, r)) : ({ s with block := k } : State).Canonical := by
  obtain ⟨hbuf, hframe⟩ := s.canonical_iff.mp h
  exact (State.canonical_iff _).mpr ⟨Block.evaluate_buf hk ▸ hbuf, Block.evaluate_frame_within hframe hk⟩

/-- Settles O51: the receive writes inside the buffer, the EVAL fills `FRAME` and no more, an RST lists nothing, and
nothing else of a step touches the block. -/
theorem everyStepKeepsTheMemoriesCanonical : Obligations.EveryStepKeepsTheMemoriesCanonical := by
  intro s t hs ht
  exact step_keeps
    (pending := fun _ _ h => h.of_same_block rfl rfl)
    (source := fun _ _ h => h.of_same_block rfl rfl)
    (raise := fun _ _ h => h.of_same_block rfl rfl)
    (receive := fun _ _ _ h hroom hk => h.receive hroom hk)
    (evaluate := fun _ _ _ h hk => h.evaluate hk)
    (reset := fun _ _ => State.canonical_of_reset rfl) s t hs ht

/-- Settles O52: a reset block lists no byte. -/
theorem resetMemoriesAreCanonical : Obligations.ResetMemoriesAreCanonical :=
  ⟨State.canonical_of_reset rfl, fun _ => State.canonical_of_reset rfl⟩

end Sys2Proof.Machine
end

section
/-! Encodings (30_encoding.md): the byte classes as ranges of values (R43), then the decoder and the encoder, which agree
in both directions (R43, R48). -/

namespace Sys2Proof

/-! ### Bit fields of a word -/

/-- A word is its high field before its low field. -/
theorem append_of_extractLsb' {k m : Nat} {x : BitVec (m + k)} {p : BitVec m} (h : x.extractLsb' k m = p) :
    p ++ x.extractLsb' 0 k = x := by
  subst h
  rw [BitVec.extractLsb'_append_extractLsb'_eq_extractLsb' (by omega), BitVec.extractLsb'_eq_self]

/-- Masking the low `k` bits off rounds down to a multiple of `2 ^ k`. -/
theorem toNat_and_highMask {w : Nat} (k : Nat) (x : BitVec w) :
    (x &&& BitVec.allOnes w <<< k).toNat = x.toNat / 2 ^ k * 2 ^ k := by
  have hshift : x &&& BitVec.allOnes w <<< k = (x >>> k) <<< k := by
    ext i hi
    by_cases hlow : i < k
    · simp [hlow]
    · simp [hlow, show k + (i - k) = i by omega, BitVec.getLsbD_eq_getElem hi]
  have hlt : x.toNat / 2 ^ k * 2 ^ k < 2 ^ w := Nat.lt_of_le_of_lt (Nat.div_mul_le_self _ _) x.isLt
  rw [hshift, BitVec.toNat_shiftLeft, BitVec.toNat_ushiftRight, Nat.shiftRight_eq_div_pow, Nat.shiftLeft_eq,
    Nat.mod_eq_of_lt hlt]

/-! ### The byte classes -/

/-- The values of each class (30_encoding.md R43). -/
def ByteClass.HasValue : ByteClass → Nat → Prop
  | .start, n => n = 0x02
  | .endMarker, n => n = 0x03
  | .hex, n => (0x30 ≤ n ∧ n ≤ 0x39) ∨ (0x41 ≤ n ∧ n ≤ 0x46)
  | .other, n => n ≠ 0x02 ∧ n ≠ 0x03 ∧ ¬ ((0x30 ≤ n ∧ n ≤ 0x39) ∨ (0x41 ≤ n ∧ n ≤ 0x46))

/-- No value has two classes. -/
theorem ByteClass.HasValue.unique {c d : ByteClass} {n : Nat} (hc : c.HasValue n) (hd : d.HasValue n) : c = d := by
  cases c <;> cases d <;> simp [ByteClass.HasValue] at hc hd ⊢ <;> omega

theorem isHex_iff (b : Byte) : Machine.isHex b = true ↔ ByteClass.hex.HasValue b.toNat := by
  simp [Machine.isHex, ByteClass.HasValue, BitVec.le_def]

theorem isOtherByte_iff (b : Byte) : isOtherByte b = true ↔ ByteClass.other.HasValue b.toNat := by
  simp [isOtherByte, ByteClass.HasValue, BitVec.le_def, BitVec.toNat_eq]
  omega

/-- The values that a row of the table matches are a range: from its bits on, as many as its mask leaves free. -/
theorem byteRowMatches_iff_range {r : ByteRow} (hr : r ∈ byteRows) (b : Byte) :
    byteRowMatches b r = true ↔ r.bits.toNat ≤ b.toNat ∧ b.toNat + r.mask.toNat < r.bits.toNat + 256 := by
  have hmask : ∃ k, k < 4 ∧ r.mask = BitVec.allOnes 8 <<< k ∧ 2 ^ k ∣ r.bits.toNat := by
    revert r; decide
  obtain ⟨k, hk, hm, hdvd⟩ := hmask
  rw [byteRowMatches, beq_iff_eq, BitVec.toNat_eq, hm, toNat_and_highMask]
  have hlt := b.isLt
  interval_cases k <;> simp at hdvd ⊢ <;> omega

/-- Each row ends before the next one of the table begins. -/
theorem byteRows_ascending :
    byteRows.Pairwise (fun r q => r.bits.toNat + 256 ≤ q.bits.toNat + r.mask.toNat) := by decide

/-- The class of a byte is that of a row it matches, and OTHER where it matches none. -/
theorem byteClass_cases (b : Byte) :
    (∃ r ∈ byteRows, byteRowMatches b r = true ∧ byteClass b = r.cls) ∨
      ((∀ r ∈ byteRows, byteRowMatches b r = false) ∧ byteClass b = .other) := by
  unfold byteClass
  split
  · next r hr => exact .inl ⟨r, List.mem_of_find?_eq_some hr, List.find?_some hr, rfl⟩
  · next hnone => exact .inr ⟨by simpa using hnone, rfl⟩

theorem byteClass_hasValue (b : Byte) : (byteClass b).HasValue b.toNat := by
  rcases byteClass_cases b with ⟨r, hr, hmatch, hcls⟩ | ⟨hnone, hcls⟩
  · rw [hcls]
    rw [byteRowMatches_iff_range hr] at hmatch
    simp only [byteRows, List.mem_cons, List.not_mem_nil, or_false] at hr
    rcases hr with rfl | rfl | rfl | rfl | rfl | rfl | rfl | rfl <;>
      simp [ByteClass.HasValue] at hmatch ⊢ <;> omega
  · have hrange : ∀ r ∈ byteRows, ¬ (r.bits.toNat ≤ b.toNat ∧ b.toNat + r.mask.toNat < r.bits.toNat + 256) :=
      fun r hr h => by simpa [hnone r hr] using (byteRowMatches_iff_range hr b).mpr h
    simp [byteRows] at hrange
    simp only [hcls, ByteClass.HasValue]
    omega

theorem byteClass_eq_iff (b : Byte) (c : ByteClass) : byteClass b = c ↔ c.HasValue b.toNat :=
  ⟨fun h => h ▸ byteClass_hasValue b, fun h => (byteClass_hasValue b).unique h⟩

/-- Of a list in which every two elements exclude each other, at most one is kept. -/
theorem length_filter_le_one {α : Type} {p : α → Bool} {l : List α}
    (h : l.Pairwise fun x y => ¬ (p x = true ∧ p y = true)) : (l.filter p).length ≤ 1 := by
  induction l with
  | nil => simp
  | cons x l ih =>
    obtain ⟨hx, hl⟩ := List.pairwise_cons.mp h
    by_cases hp : p x = true
    · have hrest : l.filter p = [] := List.filter_eq_nil_iff.mpr fun y hy hpy => hx y hy ⟨hp, hpy⟩
      simp [hp, hrest]
    · rw [List.filter_cons_of_neg hp]
      exact ih hl

/-- The rows of the table are disjoint (30_encoding.md R43). -/
theorem byteRows_disjoint (b : Byte) :
    byteRows.Pairwise fun r q => ¬ (byteRowMatches b r = true ∧ byteRowMatches b q = true) := by
  refine byteRows_ascending.imp_of_mem fun hr hq hlt => ?_
  rw [byteRowMatches_iff_range hr, byteRowMatches_iff_range hq]
  omega

/-- How many of the 256 values each row matches, in the order of the table (30_encoding.md R43). -/
theorem byteRows_valueCounts :
    (byteRows.map (fun r => ((List.range 256).filter (fun n => byteRowMatches (BitVec.ofNat 8 n) r)).length))
      = [1, 1, 8, 2, 1, 2, 2, 1] := by rfl

/-- How many of the 256 values each class has (30_encoding.md R43). -/
theorem byteClass_valueCounts :
    ([ByteClass.start, .endMarker, .hex, .other].map
      (fun c => ((List.range 256).filter (fun n => byteClass (BitVec.ofNat 8 n) = c)).length)) = [1, 1, 16, 238] := by rfl

/-- Settles O5: the class of a byte is the class whose values hold it, and the rows are disjoint ranges. -/
theorem byteClassesPartitionTheBytes : Obligations.ByteClassesPartitionTheBytes := by
  refine ⟨fun b => ⟨?_, ?_, ?_, ?_⟩, fun b => length_filter_le_one (byteRows_disjoint b), byteRows_valueCounts,
    byteClass_valueCounts⟩
  · rw [byteClass_eq_iff, BitVec.toNat_eq]; rfl
  · rw [byteClass_eq_iff, BitVec.toNat_eq]; rfl
  · rw [byteClass_eq_iff, isHex_iff]
  · rw [byteClass_eq_iff, isOtherByte_iff]

/-! ### The BYTE8 rows -/

/-- The item of a HEX row is the row's pattern before its digit bits (30_encoding.md R43). -/
theorem encode_rxbHex07 (d : BitVec 3) : encode (.rxbHex07 d) = ⟨.byte8, [0b00110#5 ++ d]⟩ := by
  revert d; decide

theorem encode_rxbHex89 (d : BitVec 1) : encode (.rxbHex89 d) = ⟨.byte8, [0b0011100#7 ++ d]⟩ := by
  revert d; decide

theorem encode_rxbHexBC (d : BitVec 1) : encode (.rxbHexBC d) = ⟨.byte8, [0b0100001#7 ++ d]⟩ := by
  revert d; decide

theorem encode_rxbHexDE (d : BitVec 1) : encode (.rxbHexDE d) = ⟨.byte8, [0b0100010#7 ++ d]⟩ := by
  revert d; decide

/-- A byte of class OTHER falls through to the default row. -/
theorem decodeByte_of_other {b : Byte} (h : isOtherByte b = true) : decodeByte b = .rxbOther b := by
  rw [isOtherByte_iff, ByteClass.HasValue] at h
  have hlt := b.isLt
  have hstart : b ≠ START := by simp [START, BitVec.toNat_eq]; omega
  have hend : b ≠ END := by simp [END, BitVec.toNat_eq]; omega
  have h07 : b.extractLsb' 3 5 ≠ 0b00110#5 := by simp [BitVec.toNat_eq]; omega
  have h89 : b.extractLsb' 1 7 ≠ 0b0011100#7 := by simp [BitVec.toNat_eq]; omega
  have hA : b ≠ 0x41#8 := by simp [BitVec.toNat_eq]; omega
  have hBC : b.extractLsb' 1 7 ≠ 0b0100001#7 := by simp [BitVec.toNat_eq]; omega
  have hDE : b.extractLsb' 1 7 ≠ 0b0100010#7 := by simp [BitVec.toNat_eq]; omega
  have hF : b ≠ 0x46#8 := by simp [BitVec.toNat_eq]; omega
  simp only [decodeByte, hstart, hend, h07, h89, hA, hBC, hDE, hF, if_false]

/-- The default row is reached by bytes of class OTHER alone. -/
theorem wellFormed_decodeByte (b : Byte) : (decodeByte b).wellFormed = true := by
  have hlt := b.isLt
  unfold decodeByte
  split_ifs with hstart hend h07 h89 hA hBC hDE hF
  any_goals rfl
  simp only [START, END, BitVec.toNat_eq, BitVec.extractLsb'_toNat, Nat.shiftRight_eq_div_pow, BitVec.toNat_ofNat]
    at hstart hend h07 h89 hA hBC hDE hF
  simp only [Instr.wellFormed, isOtherByte_iff, ByteClass.HasValue]
  omega

/-- The byte that a BYTE8 row was read from is the byte it encodes to. -/
theorem encode_decodeByte (b : Byte) : encode (decodeByte b) = ⟨.byte8, [b]⟩ := by
  unfold decodeByte
  split_ifs with hstart hend h07 h89 hA hBC hDE hF
  · rw [hstart]; rfl
  · rw [hend]; rfl
  · rw [encode_rxbHex07, append_of_extractLsb' h07]
  · rw [encode_rxbHex89, append_of_extractLsb' h89]
  · rw [hA]; rfl
  · rw [encode_rxbHexBC, append_of_extractLsb' hBC]
  · rw [encode_rxbHexDE, append_of_extractLsb' hDE]
  · rw [hF]; rfl
  · rfl

@[simp] theorem decode_byte8 (b : Byte) : decode ⟨.byte8, [b]⟩ = .ok (decodeByte b) := rfl

/-! ### The STROBE3 rows -/

/-- The decoder takes a strobe byte apart into its three strobes (30_encoding.md R48). -/
@[simp] theorem decode_strobeByte (rst rxFire ev : Bool) (d : Byte) :
    decode ⟨.strobe3, [strobeByte rst rxFire ev, d]⟩ = .ok (decodeStrobes rst rxFire ev d) := by
  cases rst <;> cases rxFire <;> cases ev <;> rfl

/-- With `rst = 1` the vector selects RST, whatever the other strobes are (30_encoding.md R48). -/
theorem decodeStrobes_rst (rxFire ev : Bool) (d : Byte) :
    decodeStrobes true rxFire ev d = .rst (if rxFire then some d else none) ev := by
  cases rxFire <;> rfl

theorem wellFormed_decodeStrobes (rst rxFire ev : Bool) (d : Byte) :
    (decodeStrobes rst rxFire ev d).wellFormed = true := by
  cases rst <;> cases rxFire <;> cases ev <;> rfl

/-! ### Decoder and encoder -/

/-- Settles O6: a row without operand is a fixed item; a HEX row has few digit values; `RXB.OTHER` is the default of the
byte decoder; a strobe row is its strobe byte; the other formats carry their bytes as they stand. -/
theorem decodeOfEncodeIsTheInstruction : Obligations.DecodeOfEncodeIsTheInstruction := by
  intro i hi
  cases i with
  | rxbHex07 d => revert d; decide
  | rxbHex89 d => revert d; decide
  | rxbHexBC d => revert d; decide
  | rxbHexDE d => revert d; decide
  | rxbOther b => rw [encode, decode_byte8, decodeByte_of_other hi]
  | rst offer ev => cases offer <;> rw [encode, decode_strobeByte, decodeStrobes_rst] <;> rfl
  | idle => rw [encode, decode_strobeByte, decodeStrobes]
  | rxb b => rw [encode, decode_strobeByte, decodeStrobes]
  | eval => rw [encode, decode_strobeByte, decodeStrobes]
  | feed1 b => rw [encode, decode_strobeByte, decodeStrobes]
  | frame raw =>
    have hlen : raw.length = FRAME_LEN := beq_iff_eq.mp hi
    simp [encode, decode, hlen]
  | rxbStart | rxbEnd | rxbHexA | rxbHexF | xtr | feed bs | stream bs | pair h l => rfl

/-- Every STROBE3 item that the decoder accepts is read as some strobe vector. -/
theorem decode_strobe3_inv {it : Item} {i : Instr} (hf : it.format = .strobe3) (h : decode it = .ok i) :
    ∃ rst rxFire ev d, i = decodeStrobes rst rxFire ev d := by
  obtain ⟨f, bs⟩ := it
  obtain rfl : f = .strobe3 := hf
  rcases bs with _ | ⟨x, _ | ⟨d, _ | ⟨c, bs⟩⟩⟩
  case cons.cons.nil =>
    simp only [decode] at h
    split at h <;> cases h
    exact ⟨_, _, _, _, rfl⟩
  all_goals cases h

/-- What an item that the decoder accepts looks like, format by format. -/
theorem decode_inv {it : Item} {i : Instr} (h : decode it = .ok i) :
    (∃ b, it = ⟨.byte8, [b]⟩ ∧ i = decodeByte b) ∨
      (it.format = .strobe3 ∧ ∃ rst rxFire ev d, i = decodeStrobes rst rxFire ev d) ∨
      (it = ⟨.extractor, []⟩ ∧ i = .xtr) ∨
      (∃ bs, it = ⟨.pseudoFeed, bs⟩ ∧ i = .feed bs) ∨
      (∃ bs, it = ⟨.pseudoStream, bs⟩ ∧ i = .stream bs) ∨
      (∃ raw, it = ⟨.frame14, raw⟩ ∧ raw.length = FRAME_LEN ∧ i = .frame raw) ∨
      (∃ c l, it = ⟨.pair16, [c, l]⟩ ∧ i = .pair c l) := by
  obtain ⟨f, bs⟩ := it
  cases f with
  | byte8 =>
    rcases bs with _ | ⟨b, _ | ⟨c, bs⟩⟩ <;> cases h
    exact .inl ⟨b, rfl, rfl⟩
  | strobe3 => exact .inr (.inl ⟨rfl, decode_strobe3_inv rfl h⟩)
  | extractor => cases bs <;> cases h; simp
  | pseudoFeed => cases h; simp
  | pseudoStream => cases h; simp
  | frame14 =>
    simp only [decode] at h
    split at h <;> cases h
    simpa
  | pair16 =>
    rcases bs with _ | ⟨c, _ | ⟨l, _ | ⟨x, bs⟩⟩⟩ <;> cases h
    simp

/-- Settles O7: format by format, `decode_inv` gives the item back; a byte is the encoding of the row it selects. -/
theorem decodedInstructionsAreWellFormed : Obligations.DecodedInstructionsAreWellFormed := by
  intro it i h
  rcases decode_inv h with ⟨b, rfl, rfl⟩ | ⟨hf, rst, rxFire, ev, d, rfl⟩ | ⟨rfl, rfl⟩ | ⟨bs, rfl, rfl⟩ | ⟨bs, rfl, rfl⟩ |
    ⟨raw, rfl, hlen, rfl⟩ | ⟨c, l, rfl, rfl⟩
  · exact ⟨wellFormed_decodeByte b, fun _ => encode_decodeByte b⟩
  · exact ⟨wellFormed_decodeStrobes rst rxFire ev d, fun hne => absurd hf hne⟩
  · exact ⟨rfl, fun _ => rfl⟩
  · exact ⟨rfl, fun _ => rfl⟩
  · exact ⟨rfl, fun _ => rfl⟩
  · exact ⟨beq_iff_eq.mpr hlen, fun _ => rfl⟩
  · exact ⟨rfl, fun _ => rfl⟩

/-- Settles O4: each of the seven words is in the row of its pattern. -/
theorem wordsOfTheTableDecode : Obligations.WordsOfTheTableDecode :=
  ⟨rfl, rfl, rfl, rfl, rfl, rfl, rfl⟩

end Sys2Proof
end

section
/-! What the data formats and the pseudo-operations execute as (30_encoding.md): the hex digit, the hex pair and the wire
frame (R45, R46, R49, R41), the strobe vectors and the step of a schedule item (R48), and the STREAM (R54). -/

namespace Sys2Proof.Machine

/-! ### Hex digits and hex pairs -/

/-- `hexval` of a hex digit is its digit value, which four bits hold (30_encoding.md R46). -/
theorem hexval_of_isHex {c : Byte} (h : isHex c = true) :
    digitValue c < 16 ∧ hexval c = some (BitVec.ofNat 4 (digitValue c)) := by
  rw [isHex_iff, ByteClass.HasValue] at h
  unfold digitValue
  rcases h with ⟨hlow, hhigh⟩ | ⟨hlow, hhigh⟩
  · rw [if_pos hhigh]
    refine ⟨by omega, ?_⟩
    rw [hexval, if_pos (by simp [BitVec.le_def]; omega)]
    simp [BitVec.toNat_eq]
    omega
  · rw [if_neg (by omega)]
    refine ⟨by omega, ?_⟩
    rw [hexval, if_neg (by simp [BitVec.le_def]; omega), if_pos (by simp [BitVec.le_def]; omega)]
    simp [BitVec.toNat_eq]
    omega

theorem hexval_eq_none {c : Byte} (h : isHex c = false) : hexval c = none := by
  rw [← Option.not_isSome_iff_eq_none, hexval_isSome, h]
  exact Bool.false_ne_true

/-- Settles O43: on each of the two ranges `digitValue` is the subtraction of that range. -/
theorem hexvalIsDefinedOnTheHexDigits : Obligations.HexvalIsDefinedOnTheHexDigits := by
  refine fun c => ⟨isHex_iff c, fun hlow hhigh => ?_, fun hlow hhigh => ?_, hexval_eq_none⟩
  · obtain ⟨_, hval⟩ := hexval_of_isHex ((isHex_iff c).mpr (.inl ⟨hlow, hhigh⟩))
    rw [hval, digitValue, if_pos hhigh]
  · obtain ⟨_, hval⟩ := hexval_of_isHex ((isHex_iff c).mpr (.inr ⟨hlow, hhigh⟩))
    rw [hval, digitValue, if_neg (by omega)]

/-- Two digits of four bits, one before the other, are the number `x * 16 + y`. -/
theorem toNat_append_digits (x y : BitVec 4) : (x ++ y).toNat = x.toNat * 16 + y.toNat := by
  rw [BitVec.toNat_append, ← Nat.shiftLeft_add_eq_or_of_lt y.isLt, Nat.shiftLeft_eq]

/-- `pairval` of two hex digits (30_encoding.md R49). -/
theorem pairval_of_isHex {h l : Byte} (hh : isHex h = true) (hl : isHex l = true) :
    ∃ v, pairval h l = some v ∧ v.toNat = digitValue h * 16 + digitValue l := by
  obtain ⟨hhlt, hhval⟩ := hexval_of_isHex hh
  obtain ⟨hllt, hlval⟩ := hexval_of_isHex hl
  refine ⟨_, pairval_of_hexval hhval hlval, ?_⟩
  rw [toNat_append_digits, BitVec.toNat_ofNat, BitVec.toNat_ofNat, Nat.mod_eq_of_lt hhlt, Nat.mod_eq_of_lt hllt]

@[simp] theorem exec_pair (h l : Byte) (s : State) :
    exec (.pair h l) s = .next (s.raise (.pairValue (pairOrFree h l))) := rfl

@[simp] theorem exec_frame (raw : List Byte) (s : State) :
    exec (.frame raw) s = .next (s.raise (.wireFrame (frameOk raw))) := rfl

theorem pairOrFree_of_pairval {h l v : Byte} (hv : pairval h l = some v) : pairOrFree h l = v := by
  rw [pairOrFree, hv]

/-- Settles O44: the PAIR row returns `pairval` wherever it has a value. -/
theorem pairAssemblesHighTimesSixteenPlusLow : Obligations.PairAssemblesHighTimesSixteenPlusLow := by
  intro h l s hh hl
  obtain ⟨v, hv, hnum⟩ := pairval_of_isHex hh hl
  exact ⟨v, hv, hnum, by rw [exec_pair, pairOrFree_of_pairval hv]; rfl⟩

/-- Settles O45: `pairval` has a value exactly where both characters are hex digits. -/
theorem pairOutsideTheDigitsHasNoValue : Obligations.PairOutsideTheDigitsHasNoValue := by
  intro h l s hnot
  have hnone : pairval h l = none := by
    rw [← Option.not_isSome_iff_eq_none, pairval_isSome, Bool.not_eq_true, Bool.and_eq_false_iff]
    exact hnot
  exact ⟨hnone, pairOrFree h l, exec_pair h l s⟩

/-- Settles O46: the FRAME row returns `frame_ok`, which is judged index by index (`frameOk_iff`). -/
theorem wireFrameIsJudgedByteByByte : Obligations.WireFrameIsJudgedByteByByte := by
  intro raw s hlen
  refine ⟨frameOk raw, exec_frame raw s, ?_⟩
  rw [frameOk_iff]
  constructor
  · rintro ⟨_, hstart, hend, hhex⟩
    exact ⟨hstart, hend, fun i c hlow hhigh hc => hhex i hlow hhigh c hc⟩
  · rintro ⟨hstart, hend, hhex⟩
    exact ⟨hlen, hstart, hend, fun i hlow hhigh c hc => hhex i c hlow hhigh hc⟩

/-! ### Strobe vectors -/

/-- A number from 4 to 7 is a strobe byte with `rst = 1` (30_encoding.md R48). -/
theorem ofNat_eq_strobeByte_rst {x : Nat} (hlow : 4 ≤ x) (hhigh : x < 8) :
    BitVec.ofNat 8 x = strobeByte true (x.testBit 1) (x.testBit 0) := by
  interval_cases x <;> rfl

theorem State.offerByteEval_of_offerByte {s t : State} {b : Byte} (h : s.offerByte b = .ok t) :
    s.offerByteEval b = t.evaluate := by
  rw [State.offerByteEval, h]

/-- The RXB of a step, then its EVAL, is the FEED1 of the step (30_encoding.md R48). -/
theorem exec_rxb_eval_feed1 (s : State) (d : Byte) :
    ∃ t u, exec (.rxb d) s = .next t ∧ exec .eval t = .next u ∧ exec (.feed1 d) s = .next u := by
  obtain ⟨t, ht⟩ := (s.deliver [d]).handOver_completes
  obtain ⟨u, hu⟩ := t.evaluate_completes
  have hoffer : s.offerByte d = .ok t := ht
  refine ⟨t, u, ?_, ?_, ?_⟩
  · rw [exec_offered rfl, hoffer, outcome_ok]
  · rw [exec_eval, hu, outcome_ok]
  · rw [exec_feed1, State.offerByteEval_of_offerByte hoffer, hu, outcome_ok]

/-- Settles O3: the eight vectors are the eight strobe bytes, and FEED1 is the RXB and then the EVAL. -/
theorem strobeVectorSelectsTheOperation : Obligations.StrobeVectorSelectsTheOperation := by
  refine ⟨fun x d hlow hhigh => ?_, fun d => ⟨rfl, rfl, rfl, rfl⟩, exec_idle, exec_rxb_eval_feed1⟩
  rw [ofNat_eq_strobeByte_rst hlow hhigh, decode_strobeByte, decodeStrobes_rst]
  exact ⟨_, _, rfl, fun s => ⟨_, exec_rst _ _ s, by simp, by simp⟩⟩

/-! ### The step of a schedule item -/

/-- IDLE and EVAL are the rows whose item brings no byte (30_encoding.md R48). -/
theorem bringsNoByte_eq_false {i : Instr} (hidle : i ≠ .idle) (heval : i ≠ .eval) : bringsNoByte i = false := by
  cases i
  case idle => exact absurd rfl hidle
  case eval => exact absurd rfl heval
  all_goals rfl

/-- A step in which no handshake is made is the operation itself. -/
theorem step_of_fetch {s v : State} {i : Instr} (hfetch : s.fetch = .ok (i, v))
    (hquiet : v.rxFire = false ∨ (i ≠ .idle ∧ i ≠ .eval)) : step s = exec i v := by
  have hshake : v.handshake i = .ok v := by
    rcases hquiet with hfire | ⟨hidle, heval⟩
    · exact State.handshake_of_no_fire i hfire
    · rw [State.handshake, bringsNoByte_eq_false hidle heval]; rfl
  simp only [step, hfetch, hshake]

/-- The step of an item that decodes to no pseudo-operation, where no handshake is made. -/
theorem step_of_decode {s : State} {it : Item} {rest : List Item} {i : Instr} (hp : s.pending = it :: rest)
    (hi : decode it = .ok i) (hquiet : s.rxFire = false ∨ (i ≠ .idle ∧ i ≠ .eval))
    (hpseudo : ∀ bs, i ≠ .feed bs ∧ i ≠ .stream bs) : step s = exec i { s with pending := rest } := by
  have hfetch := State.fetch_cons hp hi
  rw [State.issue_self hpseudo] at hfetch
  exact step_of_fetch hfetch hquiet

/-- An item has the format of the row that it decodes to. -/
theorem encode_format_of_decode {it : Item} {i : Instr} (h : decode it = .ok i) : (encode i).format = it.format := by
  by_cases hstrobe : it.format = .strobe3
  · obtain ⟨rst, rxFire, ev, d, rfl⟩ := decode_strobe3_inv hstrobe h
    rw [hstrobe]
    cases rst <;> cases rxFire <;> cases ev <;> rfl
  · obtain ⟨_, hencode⟩ := decodedInstructionsAreWellFormed it i h
    rw [hencode hstrobe]

theorem tableItem_format (nbits w : Nat) :
    (tableItem nbits w).format ≠ .pseudoFeed ∧ (tableItem nbits w).format ≠ .pseudoStream := by
  unfold tableItem
  repeat' split
  all_goals simp

/-- No table word is a pseudo-operation. -/
theorem decode_tableItem_not_pseudo {nbits w : Nat} {i : Instr} (h : decode (tableItem nbits w) = .ok i)
    (bs : List Byte) : i ≠ .feed bs ∧ i ≠ .stream bs := by
  obtain ⟨hfeed, hstream⟩ := tableItem_format nbits w
  rw [← encode_format_of_decode h] at hfeed hstream
  exact ⟨fun hi => hfeed (hi ▸ rfl), fun hi => hstream (hi ▸ rfl)⟩

theorem decodeTableWord_eq_some {nbits w : Nat} {i : Instr} (h : decodeTableWord nbits w = some i) :
    decode (tableItem nbits w) = .ok i := by
  unfold decodeTableWord at h
  split at h
  · next hi => cases h; exact hi
  · cases h

/-- Settles O1: a table word stands in front of the schedule as its item, so its step is that item's. -/
theorem stepRunsTheDecodedItem : Obligations.StepRunsTheDecodedItem := by
  refine ⟨fun s it rest i hp hi hquiet hpseudo => step_of_decode hp hi hquiet hpseudo,
    fun s nbits w i hw hquiet => ?_, fun s it rest e hp he => ?_, fun s hp hfire => ?_⟩
  · have hi := decodeTableWord_eq_some hw
    exact step_of_decode (s := s.withFetchWord nbits w) rfl hi hquiet (decode_tableItem_not_pseudo hi)
  · simp only [step, State.fetch, hp, he]
  · rw [step_of_fetch (State.fetch_nil hp) (.inl hfire), exec_idle]

/-! ### STREAM -/

/-- With nothing held, the drain of one delivered byte is the one handshake of its RXB (41_evaluate.md R74). -/
theorem State.offerByteEval_eq_feedBytes {s : State} (b : Byte) (h : s.source = []) :
    s.offerByteEval b = s.feedBytes [b] := by
  cases ht : s.cfg.transport with
  | altStub => rw [State.offerByteEval_altStub ht, State.feedBytes_altStub ht]
  | serial =>
    obtain ⟨t, hhand⟩ := (s.deliver [b]).handOver_completes
    have hone : (s.deliver [b]).source.length = 1 := by simp [State.deliver_serial ht, h]
    have hdrain : (s.deliver [b]).drain = .ok t := by
      rw [State.drain, hone, State.drainUpTo, hhand]; rfl
    rw [State.offerByteEval, State.offerByte, hhand, State.feedBytes, hdrain]

/-- Settles O32: by induction on the bytes, each FEED1 completes and the stream goes on from its state. -/
theorem streamIsOneFeedPerByte : Obligations.StreamIsOneFeedPerByte := by
  constructor
  · intro bs
    induction bs with
    | nil => exact fun s => ⟨s, rfl, rfl⟩
    | cons b bs ih =>
      intro s
      obtain ⟨u, hu⟩ := s.offerByteEval_completes b
      obtain ⟨t, hstream, hrun⟩ := ih u
      have hfeed : exec (.feed1 b) s = .next u := by rw [exec_feed1, hu, outcome_ok]
      refine ⟨t, ?_, ?_⟩
      · rw [exec_stream, State.streamBytes_cons_of_ok hu, ← exec_stream, hstream]
      · rw [List.map_cons, runOps_cons_of_next hfeed, hrun]
  · intro b s h
    rw [exec_feed1, exec_feed, State.offerByteEval_eq_feedBytes b h]

/-- No instruction writes the schedule. -/
theorem exec_pending {i : Instr} {s t : State} (h : exec i s = .next t) : t.pending = s.pending :=
  exec_keeps (P := fun u => u.pending = s.pending) (fun _ _ hu => hu) (fun _ _ hu => hu) (fun _ _ _ hu _ _ => hu)
    (fun _ _ _ hu _ => hu) (fun _ hu => hu) i s t rfl h

/-! No shared operation reads the schedule: with another one in the state each does the same. -/

theorem State.deliver_withPending (bs : List Byte) (s : State) (p : List Item) :
    ({ s with pending := p } : State).deliver bs = { s.deliver bs with pending := p } := by
  cases ht : s.cfg.transport with
  | serial => rw [State.deliver_serial ht, State.deliver_serial (s := { s with pending := p }) ht]
  | altStub => rw [State.deliver_altStub ht, State.deliver_altStub (s := { s with pending := p }) ht]

theorem State.handOver_withPending {s t : State} (h : s.handOver = .ok t) (p : List Item) :
    ({ s with pending := p } : State).handOver = .ok { t with pending := p } := by
  rcases s.handOver_cases with ⟨b, rest, k, ht, hs, hroom, hk, h'⟩ | ⟨hquiet, h'⟩ <;> rw [h'] at h <;> cases h
  · exact State.handOver_front (s := { s with pending := p }) ht hs hroom hk
  · rcases hquiet with hstub | hnone | hfull
    · exact State.handOver_altStub (s := { s with pending := p }) hstub
    · exact State.handOver_nil (s := { s with pending := p }) hnone
    · exact State.handOver_full (s := { s with pending := p }) hfull

theorem State.evaluate_withPending {s t : State} (h : s.evaluate = .ok t) (p : List Item) :
    ({ s with pending := p } : State).evaluate = .ok { t with pending := p } := by
  rw [State.evaluate_cases] at h ⊢
  cases h
  rfl

theorem State.offerByteEval_withPending {s t : State} {b : Byte} (h : s.offerByteEval b = .ok t) (p : List Item) :
    ({ s with pending := p } : State).offerByteEval b = .ok { t with pending := p } := by
  obtain ⟨u, hu⟩ := (s.deliver [b]).handOver_completes
  have hoffer : s.offerByte b = .ok u := hu
  have hoffer' : ({ s with pending := p } : State).offerByte b = .ok { u with pending := p } := by
    rw [State.offerByte, State.deliver_withPending, State.handOver_withPending hu]
  rw [State.offerByteEval_of_offerByte hoffer] at h
  rw [State.offerByteEval_of_offerByte hoffer', State.evaluate_withPending h]

/-- A FEED1 makes its own handshake: its step is the operation alone. -/
theorem step_of_fetch_feed1 {s v : State} {b : Byte} (hfetch : s.fetch = .ok (.feed1 b, v)) :
    step s = exec (.feed1 b) v :=
  step_of_fetch hfetch (.inr ⟨nofun, nofun⟩)

/-- The step of a STREAM of no bytes only takes its item from the schedule (log 13). -/
theorem step_stream_nil {s : State} {it : Item} {rest : List Item} (hp : s.pending = it :: rest)
    (hi : decode it = .ok (.stream [])) : step s = .next { s with pending := rest } := by
  rw [step_of_fetch (State.fetch_cons hp hi) (.inr ⟨nofun, nofun⟩)]
  rfl

/-- The step of a STREAM of one byte is the FEED1 of that byte (30_encoding.md R54). -/
theorem step_stream_singleton {s : State} {it : Item} {rest : List Item} {b : Byte} (hp : s.pending = it :: rest)
    (hi : decode it = .ok (.stream [b])) : step s = exec (.feed1 b) { s with pending := rest } :=
  step_of_fetch_feed1 (State.fetch_cons hp hi)

/-- The step of a longer STREAM is the FEED1 of its first byte, with the STREAM of the others back in the
schedule. -/
theorem step_stream_cons {s : State} {it : Item} {rest : List Item} {b c : Byte} {cs : List Byte}
    (hp : s.pending = it :: rest) (hi : decode it = .ok (.stream (b :: c :: cs))) :
    step s = exec (.feed1 b) { s with pending := ⟨.pseudoStream, c :: cs⟩ :: rest } :=
  step_of_fetch_feed1 (State.fetch_cons hp hi)

theorem exec_feed1_completes (b : Byte) (s : State) : ∃ t, exec (.feed1 b) s = .next t := by
  obtain ⟨t, ht⟩ := s.offerByteEval_completes b
  exact ⟨t, by rw [exec_feed1, ht, outcome_ok]⟩

theorem runSteps_succ_of_next {n : Nat} {s t : State} (h : step s = .next t) : runSteps (n + 1) s = runSteps n t := by
  rw [runSteps, h]

/-- A STREAM of at least one byte, item by item: one step for each byte is what `exec` says of the whole. -/
theorem runSteps_stream (c : Byte) (cs : List Byte) {s : State} {it : Item} {rest : List Item}
    (hp : s.pending = it :: rest) (hi : decode it = .ok (.stream (c :: cs))) :
    ∃ t, t.pending = rest ∧ runSteps (c :: cs).length s = .next t ∧
      exec (.stream (c :: cs)) { s with pending := rest } = .next t := by
  induction cs generalizing c s it with
  | nil =>
    obtain ⟨t, ht⟩ := State.offerByteEval_completes c { s with pending := rest }
    have hfeed : exec (.feed1 c) { s with pending := rest } = .next t := by rw [exec_feed1, ht, outcome_ok]
    refine ⟨t, exec_pending hfeed, ?_, ?_⟩
    · rw [List.length_singleton, runSteps_succ_of_next ((step_stream_singleton hp hi).trans hfeed), runSteps]
    · rw [exec_stream, State.streamBytes_cons_of_ok ht]; rfl
  | cons d ds ih =>
    obtain ⟨u, hu⟩ := State.offerByteEval_completes c { s with pending := ⟨.pseudoStream, d :: ds⟩ :: rest }
    have hfeed : exec (.feed1 c) { s with pending := ⟨.pseudoStream, d :: ds⟩ :: rest } = .next u := by
      rw [exec_feed1, hu, outcome_ok]
    obtain ⟨t, htp, hrun, hstream⟩ := ih d (exec_pending hfeed) rfl
    refine ⟨t, htp, ?_, ?_⟩
    · rw [List.length_cons, runSteps_succ_of_next ((step_stream_cons hp hi).trans hfeed), hrun]
    · rw [exec_stream, State.streamBytes_cons_of_ok (State.offerByteEval_withPending hu rest), ← exec_stream, hstream]

/-- Settles O30: the three clauses about one step are the three ways a STREAM is issued, and the run is by induction on
the bytes. -/
theorem streamItemRunsOneFeedAStep : Obligations.StreamItemRunsOneFeedAStep := by
  intro bs s it rest hp hi
  refine ⟨?_, ?_, ?_, ?_⟩
  · rintro rfl
    exact step_stream_nil hp hi
  · rintro b c cs rfl
    obtain ⟨t, ht⟩ := exec_feed1_completes b { s with pending := ⟨.pseudoStream, c :: cs⟩ :: rest }
    exact ⟨t, ht, (step_stream_cons hp hi).trans ht⟩
  · rintro b rfl
    obtain ⟨t, ht⟩ := exec_feed1_completes b { s with pending := rest }
    exact ⟨t, ht, (step_stream_singleton hp hi).trans ht⟩
  · cases bs with
    | nil =>
      have hrun : runSteps 1 s = .next { s with pending := rest } := by
        rw [runSteps_succ_of_next (step_stream_nil hp hi), runSteps]
      exact ⟨_, rfl, hrun, rfl⟩
    | cons c cs =>
      obtain ⟨t, htp, hrun, hstream⟩ := runSteps_stream c cs hp hi
      exact ⟨t, htp, by rw [Nat.max_eq_right (by simp), hrun], hstream⟩

end Sys2Proof.Machine
end

section
/-! The operation RXB (40_receive.md): the byte a BYTE8 row stands for (R55), the three outcomes of a receive where it is
enabled (R60 to R64), the stall of a full buffer (R56) and the bytes of a truncated frame (R63, R96). -/

namespace Sys2Proof.Machine

/-! ### The byte of a row -/

/-- An instruction whose item is one byte offers exactly that byte (R55, 30_encoding.md R43). -/
theorem offeredByte_of_encode {i : Instr} {b : Byte} (h : encode i = ⟨.byte8, [b]⟩) : offeredByte i = some b := by
  cases i with
  | rxbHex07 d => cases h; revert d; decide
  | rxbHex89 d => cases h; revert d; decide
  | rxbHexBC d => cases h; revert d; decide
  | rxbHexDE d => cases h; revert d; decide
  | rxbStart | rxbEnd | rxbHexA | rxbHexF | rxbOther => cases h; rfl
  | rst offer ev => cases offer <;> cases h
  | idle | rxb | eval | feed1 | xtr | feed | stream | frame | pair => cases h

/-- Settles O8: the row that the decoder selects encodes to its byte, so it offers that byte, and what a row executes as
is decided by the byte it offers. -/
theorem byteRowsExecuteAsRxbOfTheirByte : Obligations.ByteRowsExecuteAsRxbOfTheirByte := by
  intro b s
  have hoffer : offeredByte (decodeByte b) = some b := offeredByte_of_encode (encode_decodeByte b)
  refine ⟨decodeByte b, decode_byte8 b, hoffer, ?_⟩
  rw [exec_offered hoffer, exec_offered rfl]

/-! ### The stall of a full buffer -/

/-- Settles O16: the offered byte joins the end of the source, and at `cursor = BUF_CAP` no handshake takes one. -/
theorem fullBufferHoldsTheOfferedByte : Obligations.FullBufferHoldsTheOfferedByte := by
  intro i b s hb hserial hfull
  have hstall : (s.deliver [b]).handOver = .ok (s.deliver [b]) := State.handOver_full (by simpa using hfull)
  rw [exec_offered hb, State.offerByte, hstall, outcome_ok, State.deliver_serial hserial]

/-! ### The outcome of a receive on the machine -/

/-- Where RXB is enabled, an RXB row is what the block receives of its byte (R56, R59). -/
theorem exec_of_receive {i : Instr} {b : Byte} {s : State} {k : Block} (hb : offeredByte i = some b) (hs : s.Receptive)
    (hk : Block.receive s.cfg b s.block = .ok k) : exec i s = .next { s with block := k } := by
  rw [exec_offered hb, State.offerByte_receptive hs.serial hs.nothing_held hs.room hk, outcome_ok]

/-- A START is received as a fresh accumulation, whatever was in progress (R61, R62). -/
theorem exec_start_receptive {i : Instr} {s : State} (hb : offeredByte i = some START) (hs : s.Receptive) :
    exec i s = .next { s with block := s.block.restarted } :=
  exec_of_receive hb hs (Block.receive_cases _ _ _ hs.room)

/-- Inside a frame every byte but START is appended (R63, R64). -/
theorem exec_append_receptive {i : Instr} {b : Byte} {s : State} (hb : offeredByte i = some b) (hs : s.Receptive)
    (hin : s.block.inFrame = true) (hne : b ≠ START) : exec i s = .next { s with block := s.block.appended b } := by
  have hk : Block.receive s.cfg b s.block = .ok (s.block.appended b) := by
    rw [Block.receive_cases _ _ _ hs.room, if_neg hne, if_pos hin]; rfl
  exact exec_of_receive hb hs hk

/-- Settles O12: of the two transitions (a) needs `in_frame = 1` and (b) a START, so the block is left as it is. -/
theorem bytesOutsideAFrameAreDropped : Obligations.BytesOutsideAFrameAreDropped := by
  intro i b s hb hs hout hne
  have hk : Block.receive s.cfg b s.block = .ok s.block := by
    rw [Block.receive_cases _ _ _ hs.room, if_neg hne, if_neg (by simp [hout])]
  exact exec_of_receive hb hs hk

/-! ### What a receive leaves unchanged -/

/-- A change of the block is a change of nothing outside it. -/
theorem State.sameOutside_withBlock (s : State) (k : Block) : s.SameOutside { s with block := k } :=
  ⟨rfl, rfl, rfl, rfl, rfl⟩

theorem State.sameFrame_withBlock {s : State} {k : Block} (hframe : k.frame = s.block.frame)
    (hfvalid : k.fvalid = s.block.fvalid) : s.SameFrame { s with block := k } :=
  ⟨fun _ => State.frameByte_congr rfl hframe, hfvalid⟩

/-! ### START -/

/-- Inside a frame a START is also appended at the old cursor before it begins the new frame (R62). -/
theorem Block.restarted_read_cursor {k : Block} (hin : k.inFrame = true) :
    k.restarted.buf.read k.cursor = some START := by
  simp [Block.restarted, hin, Memory.read_write]

/-- A START writes index 0, and the old cursor index inside a frame alone (R61, R62). -/
theorem Block.restarted_read_unwritten {k : Block} {a : Nat} (h0 : a ≠ 0) (hc : k.inFrame = true → a ≠ k.cursor) :
    k.restarted.buf.read a = k.buf.read a := by
  cases hin : k.inFrame with
  | true => exact Block.restarted_read_other h0 (hc hin)
  | false => simp [Block.restarted, hin, Memory.read_write_other _ _ h0]

/-- Settles O13: the block after a START is `Block.restarted`, and its buffer is read index by index. -/
theorem startBeginsAFreshAccumulation : Obligations.StartBeginsAFreshAccumulation := by
  intro i s hb hs
  refine ⟨_, exec_start_receptive hb hs, rfl, rfl, ?_, fun hin => ?_, fun a h0 hc => ?_, ?_, ?_⟩
  · exact State.bufByte_of_read s.block.restarted_read_zero
  · exact State.bufByte_of_read (Block.restarted_read_cursor hin)
  · exact State.bufByte_congr rfl (Block.restarted_read_unwritten h0 hc)
  · exact State.sameFrame_withBlock rfl rfl
  · exact s.sameOutside_withBlock _

/-! ### Every other byte inside a frame -/

/-- An append inside a frame (R57): the byte stands at the old cursor index, the cursor advances, `in_frame` falls at an
END alone, and nothing else changes. -/
theorem exec_append_spec {i : Instr} {b : Byte} {s : State} (hb : offeredByte i = some b) (hs : s.Receptive)
    (hin : s.block.inFrame = true) (hne : b ≠ START) :
    ∃ t, exec i s = .next t ∧ t.block.cursor = s.block.cursor + 1 ∧ t.block.inFrame = (b != END) ∧
      t.bufByte s.block.cursor = b ∧ (∀ a, a ≠ s.block.cursor → t.bufByte a = s.bufByte a) ∧
      s.SameFrame t ∧ s.SameOutside t := by
  refine ⟨_, exec_append_receptive hb hs hin hne, rfl, rfl, ?_, fun a ha => ?_, ?_, ?_⟩
  · exact State.bufByte_of_read (s.block.appended_read_cursor b)
  · exact State.bufByte_congr rfl (Block.appended_read_other b ha)
  · exact State.sameFrame_withBlock rfl rfl
  · exact s.sameOutside_withBlock _

/-- Settles O14: an END is appended like every byte, and it is the byte at which `in_frame` falls. -/
theorem endInsideAFrameIsAppendedAndClosesIt : Obligations.EndInsideAFrameIsAppendedAndClosesIt := by
  intro i s hb hs hin
  obtain ⟨t, ht, hcursor, hflag, hrest⟩ := exec_append_spec hb hs hin (by decide)
  rw [bne_self_eq_false] at hflag
  exact ⟨t, ht, hcursor, hflag, hrest⟩

/-- Settles O15: at a byte that is no END `in_frame` stays 1. -/
theorem otherBytesInsideAFrameAreAppended : Obligations.OtherBytesInsideAFrameAreAppended := by
  intro i b s hb hstart hend hs hin
  obtain ⟨t, ht, hcursor, hflag, hrest⟩ := exec_append_spec hb hs hin hstart
  rw [bne_iff_ne.mpr hend] at hflag
  exact ⟨t, ht, hcursor, hflag, hrest⟩

/-! ### A truncated frame -/

/-- A result returned to the host leaves RXB enabled. -/
theorem State.Receptive.raise {s : State} (h : s.Receptive) (r : Result) : (s.raise r).Receptive :=
  ⟨h.serial, h.nothing_held, h.room⟩

/-- Settles O20: by induction on the trace, each EVAL only returns an INCOMPLETE and each byte is dropped, so the next
operation meets the same block. -/
theorem truncatedFrameStaysIncomplete : Obligations.TruncatedFrameStaysIncomplete := by
  intro ops
  induction ops with
  | nil => exact fun s _ _ _ _ => ⟨s, rfl, rfl, by simp⟩
  | cons i ops ih =>
    intro s hs hout hshort hops
    obtain ⟨hi, hrest⟩ := List.forall_mem_cons.mp hops
    rcases hi with rfl | ⟨b, hb, hne⟩
    · have heval : exec .eval s = .next (s.raise (.frameResult .incomplete)) := by
        rw [exec_eval, State.evaluate_of_short hshort, outcome_ok]
      obtain ⟨t, ht, hblock, hlog⟩ := ih _ (hs.raise _) hout hshort hrest
      refine ⟨t, by rw [runOps_cons_of_next heval, ht], hblock, ?_⟩
      rw [hlog, State.raise_log, List.count_cons_self, List.replicate_succ, List.append_assoc, List.singleton_append]
    · have hdrop : exec i s = .next s := bytesOutsideAFrameAreDropped i b s hb hs hout hne
      have hneval : i ≠ .eval := by rintro rfl; cases hb
      obtain ⟨t, ht, hblock, hlog⟩ := ih s hs hout hshort hrest
      exact ⟨t, by rw [runOps_cons_of_next hdrop, ht], hblock, by rw [hlog, List.count_cons_of_ne hneval]⟩

end Sys2Proof.Machine
end

section
/-! Evaluation (41_evaluate.md): RXB and EVAL as functions of the block alone, where RXB is enabled,
then the rules of a single EVAL (R68 to R72). -/

namespace Sys2Proof.Machine

/-! ### The block after an RXB, and after an EVAL -/

/-- The block after an `RXB b` that is enabled (40_receive.md R60 to R64). -/
def Block.received (b : Byte) (k : Block) : Block :=
  if b = START then k.restarted else if k.inFrame then k.appended b else k

/-- The block after an EVAL (41_evaluate.md R73). -/
def Block.evaluated (n : Nat) (k : Block) : Block :=
  if 14 < k.cursor then k.discarded else if k.cursor = 14 then k.judged n else k

/-- The result of an EVAL (41_evaluate.md R73). -/
def Block.verdict (n : Nat) (k : Block) : FrameResult :=
  if 14 < k.cursor then .overrun else if k.cursor = 14 then judgement (frameOk (k.accumulated n)) else .incomplete

theorem Block.receive_eq {c : Config} {k : Block} (b : Byte) (hroom : k.cursor < c.bufCap) :
    Block.receive c b k = .ok (k.received b) :=
  Block.receive_cases c b k hroom

/-- The machine after an EVAL: the block takes the step, the host gets the result (41_evaluate.md R73). -/
def State.afterEval (s : State) : State :=
  State.raise (.frameResult (s.block.verdict s.resets)) { s with block := s.block.evaluated s.resets }

theorem State.evaluate_eq (s : State) : s.evaluate = .ok s.afterEval :=
  s.evaluate_cases

theorem exec_eval_eq (s : State) : exec .eval s = .next s.afterEval := by
  rw [exec_eval, State.evaluate_eq, outcome_ok]

@[simp] theorem State.afterEval_block (s : State) : s.afterEval.block = s.block.evaluated s.resets := rfl
@[simp] theorem State.afterEval_cfg (s : State) : s.afterEval.cfg = s.cfg := rfl
@[simp] theorem State.afterEval_source (s : State) : s.afterEval.source = s.source := rfl
@[simp] theorem State.afterEval_pending (s : State) : s.afterEval.pending = s.pending := rfl
@[simp] theorem State.afterEval_resets (s : State) : s.afterEval.resets = s.resets := rfl
@[simp] theorem State.afterEval_log (s : State) :
    s.afterEval.log = s.log ++ [.frameResult (s.block.verdict s.resets)] := rfl

@[simp] theorem Block.received_start (k : Block) : k.received START = k.restarted := if_pos rfl

theorem Block.received_append {b : Byte} {k : Block} (hin : k.inFrame = true) (hne : b ≠ START) :
    k.received b = k.appended b := by
  rw [Block.received, if_neg hne, if_pos hin]

theorem Block.received_dropped {b : Byte} {k : Block} (hout : k.inFrame = false) (hne : b ≠ START) :
    k.received b = k := by
  rw [Block.received, if_neg hne, if_neg (by simp [hout])]

/-- The three outcomes of a receive, told apart. -/
theorem Block.received_inv (b : Byte) (k : Block) :
    (b = START ∧ k.received b = k.restarted) ∨ (b ≠ START ∧ k.inFrame = true ∧ k.received b = k.appended b) ∨
      (b ≠ START ∧ k.inFrame = false ∧ k.received b = k) := by
  by_cases hb : b = START
  · subst hb; exact .inl ⟨rfl, k.received_start⟩
  · cases hin : k.inFrame
    · exact .inr (.inr ⟨hb, rfl, Block.received_dropped hin hb⟩)
    · exact .inr (.inl ⟨hb, rfl, Block.received_append hin hb⟩)

/-- A receive accumulates at most one byte. -/
theorem Block.received_cursor_le (b : Byte) (k : Block) : (k.received b).cursor ≤ k.cursor + 1 := by
  rcases k.received_inv b with ⟨_, h⟩ | ⟨_, _, h⟩ | ⟨_, _, h⟩ <;> simp [h]

theorem Block.evaluated_of_long {k : Block} (n : Nat) (h : 14 < k.cursor) : k.evaluated n = k.discarded := if_pos h

theorem Block.evaluated_of_complete {k : Block} (n : Nat) (h : k.cursor = 14) : k.evaluated n = k.judged n := by
  rw [Block.evaluated, if_neg (by omega), if_pos h]

theorem Block.evaluated_of_short {k : Block} (n : Nat) (h : k.cursor < 14) : k.evaluated n = k := by
  rw [Block.evaluated, if_neg (by omega), if_neg (by omega)]

theorem Block.verdict_of_long {k : Block} (n : Nat) (h : 14 < k.cursor) : k.verdict n = .overrun := if_pos h

theorem Block.verdict_of_complete {k : Block} (n : Nat) (h : k.cursor = 14) :
    k.verdict n = judgement (frameOk (k.accumulated n)) := by
  rw [Block.verdict, if_neg (by omega), if_pos h]

theorem Block.verdict_of_short {k : Block} (n : Nat) (h : k.cursor < 14) : k.verdict n = .incomplete := by
  rw [Block.verdict, if_neg (by omega), if_neg (by omega)]

/-- The three ranges of the cursor that an EVAL tells apart. -/
theorem Block.cursor_cases (k : Block) : 14 < k.cursor ∨ k.cursor = 14 ∨ k.cursor < 14 := by omega

/-- Right after an EVAL fewer than fourteen bytes are accumulated (10_state.md R26 (g)). -/
theorem Block.evaluated_cursor_lt (n : Nat) (k : Block) : (k.evaluated n).cursor < 14 := by
  rcases k.cursor_cases with h | h | h
  · simp [Block.evaluated_of_long n h]
  · simp [Block.evaluated_of_complete n h]
  · simpa [Block.evaluated_of_short n h] using h

/-- An EVAL never writes `in_frame` (41_evaluate.md R72). -/
@[simp] theorem Block.evaluated_inFrame (n : Nat) (k : Block) : (k.evaluated n).inFrame = k.inFrame := by
  rcases k.cursor_cases with h | h | h
  · simp [Block.evaluated_of_long n h]
  · simp [Block.evaluated_of_complete n h]
  · simp [Block.evaluated_of_short n h]

/-- An EVAL never writes `buf` (41_evaluate.md R72). -/
@[simp] theorem Block.evaluated_buf (n : Nat) (k : Block) : (k.evaluated n).buf = k.buf := by
  rcases k.cursor_cases with h | h | h
  · simp [Block.evaluated_of_long n h]
  · simp [Block.evaluated_of_complete n h]
  · simp [Block.evaluated_of_short n h]

theorem judgement_ne_overrun (ok : Bool) : judgement ok ≠ .overrun := by cases ok <;> decide

theorem judgement_eq_valid (ok : Bool) : judgement ok = .valid ↔ ok = true := by cases ok <;> decide

/-- VALID is the result for fourteen bytes that are a frame, and for nothing else (41_evaluate.md R70). -/
theorem Block.verdict_eq_valid (n : Nat) (k : Block) :
    k.verdict n = .valid ↔ k.cursor = 14 ∧ frameOk (k.accumulated n) = true := by
  rcases k.cursor_cases with h | h | h
  · simp [Block.verdict_of_long n h, Nat.ne_of_gt h]
  · simp [Block.verdict_of_complete n h, h, judgement_eq_valid]
  · simp [Block.verdict_of_short n h, Nat.ne_of_lt h]

theorem Block.verdict_ne_overrun {k : Block} (n : Nat) (h : k.cursor ≤ 14) : k.verdict n ≠ .overrun := by
  rcases Nat.lt_or_eq_of_le h with hlt | heq
  · simp [Block.verdict_of_short n hlt]
  · simpa [Block.verdict_of_complete n heq] using judgement_ne_overrun _

/-! ### The rules of one EVAL -/

/-- After an EVAL the block has room, whatever `BUF_CAP` is (41_evaluate.md R75). -/
theorem State.rxReady_of_short {s : State} (h : s.block.cursor < 14) : s.rxReady = true := by
  have hcap := s.cfg.bufCap_ge
  simp only [State.rxReady, decide_eq_true_eq]
  omega

/-- Settles O21: beyond fourteen bytes the EVAL is `Block.discarded`, which has room. -/
theorem evalReportsOverrun : Obligations.EvalReportsOverrun := by
  intro s hlong
  refine ⟨_, exec_eval_eq s, ?_, State.rxReady_of_short (Block.evaluated_cursor_lt _ _)⟩
  rw [State.afterEval, Block.verdict_of_long _ hlong, Block.evaluated_of_long _ hlong]
  rfl

/-- Settles O23: below fourteen bytes the EVAL only returns its INCOMPLETE. -/
theorem evalIncompleteChangesNothing : Obligations.EvalIncompleteChangesNothing := by
  intro s hshort
  rw [exec_eval, State.evaluate_of_short hshort, outcome_ok]
  rfl

/-- `frame_ok` of fourteen accumulated bytes, index by index of the buffer (41_evaluate.md R68). -/
theorem Block.frameOk_accumulated_iff (n : Nat) (k : Block) :
    frameOk (k.accumulated n) = true ↔ k.bufByte n 0 = START ∧ k.bufByte n 13 = END ∧
      ∀ i, 1 ≤ i → i ≤ 12 → isHex (k.bufByte n i) = true := by
  have hget : ∀ i, i < 14 → (k.accumulated n)[i]? = some (k.bufByte n i) := fun i hi => by
    rw [List.getElem?_eq_getElem (by simpa using hi), Block.accumulated_getElem]
  rw [frameOk_iff, hget 0 (by omega), hget 13 (by omega)]
  constructor
  · rintro ⟨_, hstart, hend, hhex⟩
    exact ⟨Option.some.inj hstart, Option.some.inj hend,
      fun i hlow hhigh => hhex i hlow hhigh _ (hget i (by omega))⟩
  · rintro ⟨hstart, hend, hhex⟩
    refine ⟨k.accumulated_length n, congrArg some hstart, congrArg some hend, fun i hlow hhigh c hc => ?_⟩
    rw [hget i (by omega)] at hc
    exact Option.some.inj hc ▸ hhex i hlow hhigh

/-- Settles O22: at fourteen bytes the EVAL is `Block.judged`, whose flag is `frame_ok` of the bytes it captures. -/
theorem evalJudgesACompleteAccumulation : Obligations.EvalJudgesACompleteAccumulation := by
  intro s hfull
  refine ⟨_, exec_eval_eq s, ?_⟩
  rw [State.afterEval, Block.verdict_of_complete _ hfull, Block.evaluated_of_complete _ hfull]
  exact ⟨rfl, s.block.frameOk_accumulated_iff s.resets, fun _ hi => Block.judged_frameByte s.resets s.block hi,
    fun _ => rfl, rfl, rfl, rfl, rfl, rfl, rfl⟩

/-- An EVAL neither reads `in_frame` nor writes it: with another value of it the block takes the same step. -/
theorem Block.evaluated_withInFrame (n : Nat) (k : Block) (f : Bool) :
    ({ k with inFrame := f } : Block).evaluated n = { k.evaluated n with inFrame := f } := by
  rcases k.cursor_cases with h | h | h
  · rw [Block.evaluated_of_long n h, Block.evaluated_of_long (k := { k with inFrame := f }) n h]; rfl
  · rw [Block.evaluated_of_complete n h, Block.evaluated_of_complete (k := { k with inFrame := f }) n h]; rfl
  · rw [Block.evaluated_of_short n h, Block.evaluated_of_short (k := { k with inFrame := f }) n h]

/-- The result of an EVAL is computed without `in_frame`. -/
theorem Block.verdict_withInFrame (n : Nat) (k : Block) (f : Bool) :
    ({ k with inFrame := f } : Block).verdict n = k.verdict n := rfl

/-- Settles O24: the step and its result are computed from the cursor and the buffer (`Block.evaluated_withInFrame`). -/
theorem evalNeitherReadsNorWritesInFrame : Obligations.EvalNeitherReadsNorWritesInFrame := by
  intro s f
  refine ⟨_, exec_eval_eq s, Block.evaluated_inFrame _ _, Block.evaluated_buf _ _, ?_⟩
  rw [exec_eval_eq, State.afterEval, Block.verdict_withInFrame, Block.evaluated_withInFrame]
  rfl

end Sys2Proof.Machine
end

section
/-! Runs of bytes and of evaluations (41_evaluate.md): the bytes accumulated so far, as a list that grows with each byte of
a frame; then what a run of RXBs, or of RXBs with EVALs between them, leaves (R72, R76, R79). -/

namespace Sys2Proof.Machine

/-! ### The bytes accumulated -/

/-- The bytes below the cursor, which an EVAL judges when there are fourteen of them (10_state.md R16). -/
def Block.accumulation (n : Nat) (k : Block) : List Byte := (List.range k.cursor).map (k.bufByte n)

@[simp] theorem Block.accumulation_length (n : Nat) (k : Block) : (k.accumulation n).length = k.cursor := by
  simp [Block.accumulation]

theorem Block.accumulation_eq_nil {n : Nat} {k : Block} (h : k.cursor = 0) : k.accumulation n = [] := by
  simp [Block.accumulation, h]

theorem Block.accumulated_eq {n : Nat} {k : Block} (h : k.cursor = 14) : k.accumulated n = k.accumulation n := by
  rw [Block.accumulation, h, Block.accumulated]

theorem Block.bufByte_of_read {n i : Nat} {k : Block} {v : Byte} (h : k.buf.read i = some v) : k.bufByte n i = v := by
  rw [Block.bufByte, h]

theorem Block.bufByte_congr {n i : Nat} {k l : Block} (h : l.buf.read i = k.buf.read i) :
    l.bufByte n i = k.bufByte n i := by
  rw [Block.bufByte, Block.bufByte, h]

@[simp] theorem Block.restarted_accumulation (n : Nat) (k : Block) : k.restarted.accumulation n = [START] := by
  simp [Block.accumulation, Block.bufByte_of_read k.restarted_read_zero]

@[simp] theorem Block.appended_accumulation (n : Nat) (b : Byte) (k : Block) :
    (k.appended b).accumulation n = k.accumulation n ++ [b] := by
  have hold : ∀ i ∈ List.range k.cursor, (k.appended b).bufByte n i = k.bufByte n i := fun i hi =>
    Block.bufByte_congr (Block.appended_read_other b (Nat.ne_of_lt (List.mem_range.mp hi)))
  simp [Block.accumulation, List.range_succ, Block.bufByte_of_read (k.appended_read_cursor b),
    List.map_congr_left hold]

/-- An EVAL of fourteen accumulated bytes judges exactly them, and captures them whatever the judgement is
(41_evaluate.md R70). -/
theorem Block.evaluated_of_accumulation {n : Nat} {k : Block} {raw : List Byte} (h : k.accumulation n = raw)
    (hlen : raw.length = 14) :
    k.verdict n = judgement (frameOk raw) ∧ (k.evaluated n).frameBytes n = raw ∧
      (k.evaluated n).fvalid = frameOk raw := by
  have hfull : k.cursor = 14 := by rw [← k.accumulation_length n, h, hlen]
  have hraw : k.accumulated n = raw := (Block.accumulated_eq hfull).trans h
  rw [Block.verdict_of_complete n hfull, Block.evaluated_of_complete n hfull, Block.judged_frameBytes,
    Block.judged_fvalid, hraw]
  exact ⟨rfl, rfl, rfl⟩

/-- An EVAL of fourteen bytes empties the accumulation (41_evaluate.md R70). -/
theorem Block.evaluated_cursor_of_complete {n : Nat} {k : Block} (h : k.cursor = 14) : (k.evaluated n).cursor = 0 := by
  rw [Block.evaluated_of_complete n h, Block.judged_cursor]

/-- The block after an RXB of each of the bytes, one after another. -/
def Block.receivedAll (bs : List Byte) (k : Block) : Block := bs.foldl (fun l b => l.received b) k

@[simp] theorem Block.receivedAll_nil (k : Block) : k.receivedAll [] = k := rfl

@[simp] theorem Block.receivedAll_cons (b : Byte) (bs : List Byte) (k : Block) :
    k.receivedAll (b :: bs) = (k.received b).receivedAll bs := rfl

theorem Block.receivedAll_append (bs cs : List Byte) (k : Block) :
    k.receivedAll (bs ++ cs) = (k.receivedAll bs).receivedAll cs := List.foldl_append

/-- A run of receives accumulates at most its bytes. -/
theorem Block.receivedAll_cursor_le (bs : List Byte) (k : Block) :
    (k.receivedAll bs).cursor ≤ k.cursor + bs.length := by
  induction bs generalizing k with
  | nil => simp
  | cons b bs ih =>
    have hfirst := k.received_cursor_le b
    have hrest := ih (k.received b)
    rw [Block.receivedAll_cons, List.length_cons]
    omega

/-- Inside a frame, bytes that are no marker are accumulated, and the frame stays in progress (40_receive.md R64). -/
theorem Block.receivedAll_unmarked {bs : List Byte} {k : Block} (n : Nat) (hin : k.inFrame = true)
    (hstart : START ∉ bs) (hend : END ∉ bs) :
    (k.receivedAll bs).inFrame = true ∧ (k.receivedAll bs).accumulation n = k.accumulation n ++ bs := by
  induction bs generalizing k with
  | nil => simp [hin]
  | cons b bs ih =>
    obtain ⟨hbstart, hstart⟩ := not_or.mp (mt List.mem_cons.mpr hstart)
    obtain ⟨hbend, hend⟩ := not_or.mp (mt List.mem_cons.mpr hend)
    rw [Block.receivedAll_cons, Block.received_append hin (Ne.symm hbstart)]
    have hflag : (k.appended b).inFrame = true := by simpa using Ne.symm hbend
    simpa using ih hflag hstart hend

/-- The same with a last byte that may be an END (40_receive.md R63). -/
theorem Block.receivedAll_unmarked_concat {bs : List Byte} {b : Byte} {k : Block} (n : Nat) (hin : k.inFrame = true)
    (hstart : START ∉ bs) (hend : END ∉ bs) (hb : b ≠ START) :
    (k.receivedAll (bs ++ [b])).accumulation n = k.accumulation n ++ bs ++ [b] := by
  obtain ⟨hflag, hacc⟩ := Block.receivedAll_unmarked n hin hstart hend
  rw [Block.receivedAll_append, Block.receivedAll_cons, Block.receivedAll_nil, Block.received_append hflag hb,
    Block.appended_accumulation, hacc]

/-! ### Well-formed frames -/

/-- `frame_ok` as the shape of the fourteen bytes (41_evaluate.md R68). -/
theorem frameOk_iff_shape (raw : List Byte) :
    frameOk raw = true ↔ ∃ hs, raw = START :: (hs ++ [END]) ∧ hs.length = 12 ∧ ∀ h ∈ hs, isHex h = true := by
  constructor
  · intro hok
    have hdigits : ((raw.drop 1).take 12).all isHex = true := by
      rw [frameOk, Bool.and_eq_true] at hok
      obtain ⟨_, hall⟩ := hok
      exact hall
    obtain ⟨hlen, hfirst, hlast, _⟩ := (frameOk_iff raw).mp hok
    obtain ⟨a, tail, rfl⟩ := List.exists_cons_of_length_pos (l := raw) (by omega)
    obtain rfl : a = START := by simpa using hfirst
    have htail : tail.length = 13 := by simpa using hlen
    have hend : tail.drop 12 = [END] := by
      rw [List.drop_eq_getElem_cons (by omega), List.drop_eq_nil_of_le (by omega)]
      simpa [List.getElem?_eq_getElem, htail] using hlast
    refine ⟨tail.take 12, ?_, by simp [htail], by simpa using hdigits⟩
    rw [← hend, List.take_append_drop]
  · rintro ⟨hs, rfl, hlen, hhex⟩
    simpa [frameOk, FRAME_LEN, hlen, List.take_append_of_le_length] using hhex

theorem length_of_frameOk {raw : List Byte} (hok : frameOk raw = true) : raw.length = 14 := by
  obtain ⟨hlen, _⟩ := (frameOk_iff raw).mp hok
  exact hlen

/-- No hex digit is a marker (30_encoding.md R43). -/
theorem unmarked_of_isHex {hs : List Byte} (hhex : ∀ h ∈ hs, isHex h = true) : START ∉ hs ∧ END ∉ hs :=
  ⟨fun h => by simpa [isHex_start] using hhex _ h, fun h => by simpa [isHex_end] using hhex _ h⟩

/-- From every block, the bytes of a well-formed frame are accumulated as they stand: its START discards whatever was in
progress, and no marker stands before its END (41_evaluate.md R79). -/
theorem Block.receivedAll_frame {raw : List Byte} (hok : frameOk raw = true) (n : Nat) (k : Block) :
    (k.receivedAll raw).accumulation n = raw := by
  obtain ⟨hs, rfl, _, hhex⟩ := (frameOk_iff_shape raw).mp hok
  obtain ⟨hstart, hend⟩ := unmarked_of_isHex hhex
  rw [Block.receivedAll_cons, Block.received_start,
    Block.receivedAll_unmarked_concat n k.restarted_inFrame hstart hend (by decide), Block.restarted_accumulation]
  rfl

/-- An EVAL right after the bytes of a well-formed frame returns VALID and holds the frame. -/
theorem Block.evaluated_frame {raw : List Byte} (hok : frameOk raw = true) (n : Nat) (k : Block) :
    (k.receivedAll raw).verdict n = .valid ∧ ((k.receivedAll raw).evaluated n).frameBytes n = raw ∧
      ((k.receivedAll raw).evaluated n).fvalid = true := by
  obtain ⟨hverdict, hframe, hvalid⟩ :=
    Block.evaluated_of_accumulation (Block.receivedAll_frame hok n k) (length_of_frameOk hok)
  exact ⟨by rw [hverdict, hok]; rfl, hframe, by rw [hvalid, hok]⟩

/-! ### Runs of RXBs -/

/-- How many of the bytes are received, one RXB after another, until one finds no room (41_evaluate.md R74). -/
def Block.taken (c : Config) : List Byte → Block → Nat
  | [], _ => 0
  | b :: bs, k => if k.cursor < c.bufCap then Block.taken c bs (k.received b) + 1 else 0

theorem Block.taken_cons_of_room {c : Config} {k : Block} (b : Byte) (bs : List Byte) (hroom : k.cursor < c.bufCap) :
    k.taken c (b :: bs) = (k.received b).taken c bs + 1 := if_pos hroom

theorem Block.taken_of_full {c : Config} {k : Block} (bs : List Byte) (hfull : c.bufCap ≤ k.cursor) :
    k.taken c bs = 0 := by
  cases bs with
  | nil => rfl
  | cons b bs => exact if_neg (Nat.not_lt.mpr hfull)

/-- A byte is taken only where there is room. -/
theorem Block.room_of_taken_pos {c : Config} {bs : List Byte} {k : Block} (hpos : 0 < k.taken c bs) :
    k.cursor < c.bufCap := by
  by_contra hfull
  rw [Block.taken_of_full _ (Nat.not_lt.mp hfull)] at hpos
  exact Nat.lt_irrefl 0 hpos

/-- Each byte accumulates at most one, so as many bytes as there is room for are received. -/
theorem Block.taken_of_room {c : Config} {bs : List Byte} {k : Block} (hroom : k.cursor + bs.length ≤ c.bufCap) :
    k.taken c bs = bs.length := by
  induction bs generalizing k with
  | nil => rfl
  | cons b bs ih =>
    have hle := k.received_cursor_le b
    rw [List.length_cons] at hroom ⊢
    rw [Block.taken_cons_of_room b bs (by omega), ih (by omega)]

/-- RXB where it is enabled, as a function of the block. -/
theorem exec_rxb_receptive {s : State} (hs : s.Receptive) (b : Byte) :
    exec (.rxb b) s = .next { s with block := s.block.received b } :=
  exec_of_receive rfl hs (Block.receive_eq b hs.room)

/-- A run of RXBs in which each byte finds room. -/
theorem runOps_rxbs {bs : List Byte} {s : State} (hserial : s.cfg.transport = .serial) (hnone : s.source = [])
    (hall : s.block.taken s.cfg bs = bs.length) :
    runOps (bs.map .rxb) s = .next { s with block := s.block.receivedAll bs } := by
  induction bs generalizing s with
  | nil => rfl
  | cons b bs ih =>
    have hroom : s.block.cursor < s.cfg.bufCap := Block.room_of_taken_pos (by rw [hall]; exact Nat.succ_pos _)
    rw [Block.taken_cons_of_room b bs hroom, List.length_cons] at hall
    rw [List.map_cons, runOps_cons_of_next (exec_rxb_receptive ⟨hserial, hnone, hroom⟩ b),
      ih (s := { s with block := s.block.received b }) hserial hnone (Nat.succ.inj hall)]
    rfl

/-- Settles O27: with `in_frame = 1` the fourteen bytes are accumulated as they stand, and the first of them is no
START. -/
theorem headlessAccumulationIsMalformed : Obligations.HeadlessAccumulationIsMalformed := by
  intro bs s hs hzero hin hlen hstart hend
  have hcap := s.cfg.bufCap_ge
  have hrun := runOps_rxbs (bs := bs) hs.serial hs.nothing_held (Block.taken_of_room (by omega))
  have hacc : (s.block.receivedAll bs).accumulation s.resets = bs := by
    rcases List.eq_nil_or_concat' bs with rfl | ⟨front, b, rfl⟩
    · simp at hlen
    · have hfront : front.length = 13 := by simpa using hlen
      rw [List.take_left' hfront] at hend
      simp only [List.mem_append, List.mem_singleton, not_or] at hstart
      obtain ⟨hfstart, hb⟩ := hstart
      rw [Block.receivedAll_unmarked_concat _ hin hfstart hend (Ne.symm hb), Block.accumulation_eq_nil hzero,
        List.nil_append]
  have hbad : frameOk bs = false := by
    rw [← Bool.not_eq_true]
    intro hok
    obtain ⟨hs, rfl, _⟩ := (frameOk_iff_shape bs).mp hok
    simp at hstart
  obtain ⟨hverdict, hframe, hvalid⟩ := Block.evaluated_of_accumulation hacc hlen
  have hzero' : ((s.block.receivedAll bs).evaluated s.resets).cursor = 0 :=
    Block.evaluated_cursor_of_complete (by rw [← Block.accumulation_length s.resets, hacc, hlen])
  rw [runOps_append hrun, runOps_cons_of_next (exec_eval_eq _)]
  exact ⟨_, rfl, by simp [hverdict, hbad, judgement], hzero', hvalid.trans hbad, hframe⟩

/-! ### EVALs between the bytes -/

/-- The state after these bytes and `m` EVALs, none of which found fourteen bytes (41_evaluate.md R71). -/
def State.unjudged (bs : List Byte) (m : Nat) (s : State) : State :=
  { s with block := s.block.receivedAll bs, log := s.log ++ List.replicate m (.frameResult .incomplete) }

@[simp] theorem State.unjudged_block (bs : List Byte) (m : Nat) (s : State) :
    (s.unjudged bs m).block = s.block.receivedAll bs := rfl
@[simp] theorem State.unjudged_cfg (bs : List Byte) (m : Nat) (s : State) : (s.unjudged bs m).cfg = s.cfg := rfl
@[simp] theorem State.unjudged_source (bs : List Byte) (m : Nat) (s : State) : (s.unjudged bs m).source = s.source := rfl
@[simp] theorem State.unjudged_resets (bs : List Byte) (m : Nat) (s : State) : (s.unjudged bs m).resets = s.resets := rfl
@[simp] theorem State.unjudged_log (bs : List Byte) (m : Nat) (s : State) :
    (s.unjudged bs m).log = s.log ++ List.replicate m (.frameResult .incomplete) := rfl

@[simp] theorem State.unjudged_zero (s : State) : s.unjudged [] 0 = s := by simp [State.unjudged]

@[simp] theorem State.unjudged_unjudged (bs cs : List Byte) (m n : Nat) (s : State) :
    (s.unjudged bs m).unjudged cs n = s.unjudged (bs ++ cs) (m + n) := by
  simp [State.unjudged, Block.receivedAll_append]

theorem State.afterEval_of_short {s : State} (hshort : s.block.cursor < 14) : s.afterEval = s.unjudged [] 1 := by
  rw [State.afterEval, Block.verdict_of_short _ hshort, Block.evaluated_of_short _ hshort]
  rfl

/-- With fewer than fourteen bytes accumulated, EVALs only return INCOMPLETEs. -/
theorem runOps_evals_of_short {s : State} (hshort : s.block.cursor < 14) (n : Nat) :
    runOps (List.replicate n .eval) s = .next (s.unjudged [] n) := by
  induction n generalizing s with
  | zero => simp [runOps]
  | succ n ih =>
    rw [List.replicate_succ, runOps_cons_of_next (exec_eval_eq s), State.afterEval_of_short hshort,
      ih (by simpa using hshort), State.unjudged_unjudged, Nat.add_comm 1 n]
    rfl

theorem scheduleOps_cons (b : Byte) (n : Nat) (sched : List (Byte × Nat)) :
    scheduleOps ((b, n) :: sched) = .rxb b :: (List.replicate n .eval ++ scheduleOps sched) := rfl

/-- A byte that leaves fewer than fourteen accumulated, with its EVALs, in front of a schedule. -/
theorem runOps_scheduleOps_cons {s : State} {b : Byte} (hs : s.Receptive) (hshort : (s.block.received b).cursor < 14)
    (n : Nat) (sched : List (Byte × Nat)) :
    runOps (scheduleOps ((b, n) :: sched)) s = runOps (scheduleOps sched) (s.unjudged [b] n) := by
  rw [scheduleOps_cons, runOps_cons_of_next (exec_rxb_receptive hs b),
    runOps_append (runOps_evals_of_short (s := { s with block := s.block.received b }) hshort n)]
  rfl

/-- With fewer than fourteen bytes accumulated there is room for the next, whatever `BUF_CAP` is. -/
theorem State.receptive_of_short {s : State} (hserial : s.cfg.transport = .serial) (hnone : s.source = [])
    (hshort : s.block.cursor < 14) : s.Receptive :=
  ⟨hserial, hnone, by have hcap := s.cfg.bufCap_ge; omega⟩

/-- A schedule too short to complete an accumulation: its bytes are received and its EVALs are INCOMPLETE. -/
theorem runOps_scheduleOps_of_short {sched : List (Byte × Nat)} {s : State} (hserial : s.cfg.transport = .serial)
    (hnone : s.source = []) (hshort : s.block.cursor + sched.length < 14) :
    runOps (scheduleOps sched) s = .next (s.unjudged (sched.map Prod.fst) (sched.map Prod.snd).sum) := by
  induction sched generalizing s with
  | nil => simp [scheduleOps, runOps]
  | cons p sched ih =>
    obtain ⟨b, n⟩ := p
    have hle := s.block.received_cursor_le b
    rw [List.length_cons] at hshort
    have hs := State.receptive_of_short hserial hnone (by omega)
    have hrest : (s.unjudged [b] n).block.cursor + sched.length < 14 := by
      simp only [State.unjudged_block, Block.receivedAll_cons, Block.receivedAll_nil]; omega
    rw [runOps_scheduleOps_cons hs (by omega), ih (s := s.unjudged [b] n) hserial hnone hrest, State.unjudged_unjudged]
    rfl

/-! ### A byte and its EVAL -/

/-- The state after a byte and the EVAL that follows it, where RXB is enabled (30_encoding.md R54). -/
def State.fed (b : Byte) (s : State) : State := State.afterEval { s with block := s.block.received b }

@[simp] theorem State.fed_block (b : Byte) (s : State) :
    (s.fed b).block = (s.block.received b).evaluated s.resets := rfl
@[simp] theorem State.fed_cfg (b : Byte) (s : State) : (s.fed b).cfg = s.cfg := rfl
@[simp] theorem State.fed_source (b : Byte) (s : State) : (s.fed b).source = s.source := rfl
@[simp] theorem State.fed_resets (b : Byte) (s : State) : (s.fed b).resets = s.resets := rfl
@[simp] theorem State.fed_log (b : Byte) (s : State) :
    (s.fed b).log = s.log ++ [.frameResult ((s.block.received b).verdict s.resets)] := rfl

theorem runOps_rxb_eval {s : State} (hs : s.Receptive) (b : Byte) : runOps [.rxb b, .eval] s = .next (s.fed b) := by
  rw [runOps_cons_of_next (exec_rxb_receptive hs b), runOps_cons_of_next (exec_eval_eq _)]
  rfl

/-- Settles O36: the START leaves one byte accumulated, so every EVAL before the END is INCOMPLETE, and the bytes received
are those of a well-formed frame (`Block.evaluated_frame`). -/
theorem decoderRecoversOnTheNextFrame : Obligations.DecoderRecoversOnTheNextFrame := by
  intro s sched hs hready hsched hlen hhex
  have hok : frameOk (START :: hs ++ [END]) = true := (frameOk_iff_shape _).mpr ⟨hs, rfl, hlen, hhex⟩
  obtain ⟨hverdict, hframe, hvalid⟩ := Block.evaluated_frame hok s.resets s.block
  have hbefore : runOps (scheduleOps sched) s = .next (s.unjudged (START :: hs) (sched.map Prod.snd).sum) := by
    rcases sched with _ | ⟨⟨b, n⟩, sched⟩
    · simp at hsched
    · obtain ⟨rfl, rfl⟩ : b = START ∧ sched.map Prod.fst = hs := by simpa using hsched
      have hcount : sched.length = 12 := by simpa using hlen
      rw [runOps_scheduleOps_cons hready (by simp),
        runOps_scheduleOps_of_short (s := s.unjudged [START] n) hready.serial hready.nothing_held (by simp [hcount]),
        State.unjudged_unjudged]
      rfl
  have hshort : (s.block.receivedAll (START :: hs)).cursor < 14 := by
    have hle := s.block.restarted.receivedAll_cursor_le hs
    rw [Block.restarted_cursor, hlen] at hle
    rw [Block.receivedAll_cons, Block.received_start]
    omega
  have hroom := State.receptive_of_short (s := s.unjudged (START :: hs) (sched.map Prod.snd).sum) hready.serial
    hready.nothing_held hshort
  rw [Block.receivedAll_append] at hverdict hframe hvalid
  rw [runOps_append hbefore, runOps_rxb_eval hroom]
  refine ⟨_, rfl, ?_, hframe, hvalid⟩
  rw [State.fed_log, State.unjudged_log]
  exact congrArg (fun r => _ ++ [Result.frameResult r]) hverdict

/-! ### Prompt schedules -/

/-- The state with the INCOMPLETEs dropped from the host's record of results (41_evaluate.md R76). -/
def State.counted (s : State) : State := { s with log := s.log.filter Result.reported }

/-- Two states that are the same but for INCOMPLETEs differ in the record of results alone. -/
theorem State.counted_eq_iff {s u : State} :
    s.counted = u.counted ↔ ∃ l, u = { s with log := l } ∧ s.log.filter Result.reported = l.filter Result.reported := by
  obtain ⟨block, cfg, source, pending, log, resets⟩ := u
  constructor
  · intro h
    simp only [State.counted, State.mk.injEq] at h
    obtain ⟨rfl, rfl, rfl, rfl, hlog, rfl⟩ := h
    exact ⟨log, rfl, hlog⟩
  · rintro ⟨l, hu, hlog⟩
    cases hu
    simp only [State.counted, hlog]

theorem State.Receptive.of_counted_eq {s u : State} (h : s.counted = u.counted) (hs : s.Receptive) : u.Receptive := by
  obtain ⟨l, rfl, _⟩ := State.counted_eq_iff.mp h
  exact ⟨hs.serial, hs.nothing_held, hs.room⟩

/-- A byte and its EVAL do not read the record of results. -/
theorem State.counted_fed {s u : State} (h : s.counted = u.counted) (b : Byte) :
    (s.fed b).counted = (u.fed b).counted := by
  obtain ⟨l, rfl, hlog⟩ := State.counted_eq_iff.mp h
  simp [State.counted, State.fed, State.afterEval, State.raise, hlog]

/-- EVALs that only return INCOMPLETEs are not counted. -/
@[simp] theorem State.counted_unjudged_nil (n : Nat) (s : State) : (s.unjudged [] n).counted = s.counted := by
  simp [State.counted, State.unjudged, Result.reported]

theorem State.Receptive.fed {s : State} (hs : s.Receptive) (b : Byte) : (s.fed b).Receptive :=
  State.receptive_of_short hs.serial hs.nothing_held (Block.evaluated_cursor_lt _ _)

/-- EVALs after a byte, at least one of them where there are fourteen bytes or more, do what one EVAL does: those after the
first only return INCOMPLETEs, and so does the first where there are fewer than fourteen. -/
theorem runOps_evals_counted {s : State} {n : Nat} (hprompt : 14 ≤ s.block.cursor → 0 < n) :
    ∃ u, runOps (List.replicate n .eval) s = .next u ∧ u.counted = s.afterEval.counted := by
  cases n with
  | zero =>
    have hshort : s.block.cursor < 14 := by omega
    refine ⟨s, rfl, ?_⟩
    rw [State.afterEval_of_short hshort, State.counted_unjudged_nil]
  | succ n =>
    refine ⟨s.afterEval.unjudged [] n, ?_, State.counted_unjudged_nil n _⟩
    rw [List.replicate_succ, runOps_cons_of_next (exec_eval_eq s), runOps_evals_of_short (Block.evaluated_cursor_lt _ _)]

/-- The state after each of the bytes with its EVAL, one after another (30_encoding.md R54). -/
def State.fedAll (bs : List Byte) (s : State) : State := bs.foldl (fun u b => u.fed b) s

@[simp] theorem State.fedAll_nil (s : State) : s.fedAll [] = s := rfl

@[simp] theorem State.fedAll_cons (b : Byte) (bs : List Byte) (s : State) :
    s.fedAll (b :: bs) = (s.fed b).fedAll bs := rfl

/-- A prompt schedule does what its bytes do with one EVAL each, but for INCOMPLETEs. -/
theorem runOps_scheduleOps_of_prompt {x : List (Byte × Nat)} {s u : State} (hs : s.Receptive)
    (hsame : s.counted = u.counted) (hprompt : Prompt x s) :
    ∃ v, runOps (scheduleOps x) s = .next v ∧ v.counted = (u.fedAll (x.map Prod.fst)).counted := by
  induction x generalizing s u with
  | nil => exact ⟨s, rfl, hsame⟩
  | cons p x ih =>
    obtain ⟨b, n⟩ := p
    obtain ⟨hevals, hrest⟩ := hprompt _ (exec_rxb_receptive hs b)
    obtain ⟨w, hrun, hw⟩ := runOps_evals_counted hevals
    have hsame' : w.counted = (u.fed b).counted := hw.trans (State.counted_fed hsame b)
    have hw' : w.Receptive := (hs.fed b).of_counted_eq hw.symm
    obtain ⟨v, hv, hcounted⟩ := ih hw' hsame' (hrest w hrun)
    refine ⟨v, ?_, hcounted⟩
    rw [scheduleOps_cons, runOps_cons_of_next (exec_rxb_receptive hs b), runOps_append hrun, hv]

/-- Settles O35: both schedules do what one EVAL after each byte does, but for INCOMPLETEs. -/
theorem promptSchedulesAgree : Obligations.PromptSchedulesAgree := by
  intro s x y hs _ hbytes hx hy
  obtain ⟨v, hv, hvcounted⟩ := runOps_scheduleOps_of_prompt hs rfl hx
  obtain ⟨w, hw, hwcounted⟩ := runOps_scheduleOps_of_prompt hs rfl hy
  have hsame : v.counted = w.counted := by rw [hvcounted, hwcounted, hbytes]
  exact ⟨v, w, hv, hw, (congrArg State.block hsame :), (congrArg State.log hsame :)⟩

end Sys2Proof.Machine
end

section
/-! FEED (41_evaluate.md R74, R75): the drain as a function of the bytes on offer, then the steps of a FEED item. -/

namespace Sys2Proof.Machine

/-! ### The drain of a FEED -/

/-- The bytes taken are some of the bytes. -/
theorem Block.taken_le_length (c : Config) (bs : List Byte) (k : Block) : k.taken c bs ≤ bs.length := by
  induction bs generalizing k with
  | nil => exact Nat.le_refl 0
  | cons b bs ih =>
    by_cases hroom : k.cursor < c.bufCap
    · rw [Block.taken_cons_of_room b bs hroom]
      exact Nat.succ_le_succ (ih _)
    · simp [Block.taken_of_full _ (Nat.not_lt.mp hroom)]

/-- Up to the bytes taken, every byte of a run is. -/
theorem Block.taken_take {c : Config} {bs : List Byte} {k : Block} {j : Nat} (hj : j ≤ k.taken c bs) :
    k.taken c (bs.take j) = (bs.take j).length := by
  induction bs generalizing k j with
  | nil => rw [List.take_nil]; rfl
  | cons b bs ih =>
    cases j with
    | zero => rfl
    | succ j =>
      have hroom : k.cursor < c.bufCap := Block.room_of_taken_pos (Nat.lt_of_lt_of_le (Nat.succ_pos j) hj)
      rw [Block.taken_cons_of_room b bs hroom] at hj
      rw [List.take_succ_cons, Block.taken_cons_of_room _ _ hroom, ih (Nat.le_of_succ_le_succ hj), List.length_cons]

/-- Each byte taken finds room. -/
theorem Block.room_of_lt_taken {c : Config} {bs : List Byte} {k : Block} {j : Nat} (hj : j < k.taken c bs) :
    (k.receivedAll (bs.take j)).cursor < c.bufCap := by
  induction bs generalizing k j with
  | nil => exact absurd hj (Nat.not_lt_zero j)
  | cons b bs ih =>
    have hroom : k.cursor < c.bufCap := Block.room_of_taken_pos (Nat.zero_lt_of_lt hj)
    cases j with
    | zero => exact hroom
    | succ j =>
      rw [Block.taken_cons_of_room b bs hroom] at hj
      exact ih (Nat.lt_of_succ_lt_succ hj)

/-- Bytes are left only where the buffer is full. -/
theorem Block.full_of_taken_lt {c : Config} {bs : List Byte} {k : Block} (h : k.taken c bs < bs.length) :
    c.bufCap ≤ (k.receivedAll (bs.take (k.taken c bs))).cursor := by
  induction bs generalizing k with
  | nil => exact absurd h (Nat.not_lt_zero _)
  | cons b bs ih =>
    by_cases hroom : k.cursor < c.bufCap
    · rw [Block.taken_cons_of_room b bs hroom] at h ⊢
      exact ih (Nat.lt_of_succ_lt_succ h)
    · rw [Block.taken_of_full _ (Nat.not_lt.mp hroom)]
      exact Nat.not_lt.mp hroom

/-- The machine after the drain of what its byte source holds (41_evaluate.md R74). -/
def State.drained (s : State) : State :=
  { s with block := s.block.receivedAll (s.source.take (s.block.taken s.cfg s.source)),
           source := s.source.drop (s.block.taken s.cfg s.source) }

/-- A drain that starts with a handshake goes on from the state that it leaves. -/
theorem State.drain_cons {s : State} {b : Byte} {rest : List Byte} (hserial : s.cfg.transport = .serial)
    (hs : s.source = b :: rest) (hroom : s.block.cursor < s.cfg.bufCap) :
    s.drain = ({ s with block := s.block.received b, source := rest } : State).drain := by
  rw [State.drain, hs, List.length_cons, State.drainUpTo,
    State.handOver_front hserial hs hroom (Block.receive_eq b hroom)]
  rfl

/-- A drain that finds no byte on offer, or no room, changes nothing. -/
theorem State.drain_of_no_fire {s : State} (h : s.rxFire = false) : s.drain = .ok s := by
  have hupTo : ∀ n, State.drainUpTo n s = .ok s := by
    intro n
    induction n with
    | zero => rfl
    | succ n ih => rw [State.drainUpTo, State.handOver_of_no_fire h]; exact ih
  exact hupTo _

theorem State.rxFire_of_full {s : State} (hfull : s.cfg.bufCap ≤ s.block.cursor) : s.rxFire = false := by
  rw [← Bool.not_eq_true, State.rxFire_iff]
  omega

theorem State.rxFire_of_nil {s : State} (hnone : s.source = []) : s.rxFire = false := by
  rw [← Bool.not_eq_true, State.rxFire_iff]
  rintro ⟨_, hheld, _⟩
  exact hheld hnone

theorem State.rxFire_of_altStub {s : State} (hstub : s.cfg.transport = .altStub) : s.rxFire = false := by
  rw [← Bool.not_eq_true, State.rxFire_iff, hstub]
  rintro ⟨hserial, _⟩
  cases hserial

theorem State.drained_cons {s : State} {b : Byte} {rest : List Byte} (hs : s.source = b :: rest)
    (hroom : s.block.cursor < s.cfg.bufCap) :
    s.drained = State.drained { s with block := s.block.received b, source := rest } := by
  simp [State.drained, hs, Block.taken_cons_of_room b rest hroom]

theorem State.drained_of_none_taken {s : State} (h : s.block.taken s.cfg s.source = 0) : s.drained = s := by
  simp [State.drained, h]

theorem State.drain_eq {s : State} (hserial : s.cfg.transport = .serial) : s.drain = .ok s.drained := by
  induction hsource : s.source generalizing s with
  | nil =>
    rw [State.drain_of_no_fire (State.rxFire_of_nil hsource),
      State.drained_of_none_taken (by rw [hsource, Block.taken])]
  | cons b bs ih =>
    by_cases hroom : s.block.cursor < s.cfg.bufCap
    · rw [State.drain_cons hserial hsource hroom, State.drained_cons hsource hroom]
      exact ih hserial rfl
    · have hfull := Nat.not_lt.mp hroom
      rw [State.drain_of_no_fire (State.rxFire_of_full hfull),
        State.drained_of_none_taken (Block.taken_of_full _ hfull)]

/-- FEED with the implemented transport: the drain of what the source holds and the operand, then the EVAL (R74). -/
theorem exec_feed_serial {s : State} (hserial : s.cfg.transport = .serial) (bs : List Byte) :
    exec (.feed bs) s = .next (State.drained { s with source := s.source ++ bs }).afterEval := by
  rw [exec_feed, State.feedBytes, State.deliver_serial hserial,
    State.drain_eq (s := { s with source := s.source ++ bs }) hserial]
  exact congrArg outcome (State.evaluate_eq _)

/-- Settles O28: `k` is the number of bytes that the drain takes (`Block.taken`). -/
theorem feedDrainsThenEvaluates : Obligations.FeedDrainsThenEvaluates := by
  intro bs s hserial
  have hrun : ∀ j, j ≤ s.block.taken s.cfg (s.source ++ bs) →
      runOps (((s.source ++ bs).take j).map .rxb) { s with source := [] }
        = .next { s with block := s.block.receivedAll ((s.source ++ bs).take j), source := [] } :=
    fun j hj => runOps_rxbs (s := { s with source := [] }) hserial rfl (Block.taken_take hj)
  refine ⟨s.block.taken s.cfg (s.source ++ bs), _, _, Block.taken_le_length _ _ _, hrun _ (Nat.le_refl _),
    fun j v hj hv => ?_, Block.full_of_taken_lt, exec_eval_eq _, exec_feed_serial hserial bs⟩
  rw [hrun j (Nat.le_of_lt hj)] at hv
  cases hv
  exact Block.room_of_lt_taken hj

/-- Settles O31: a byte is left only where `cursor = BUF_CAP`, which is above fourteen. -/
theorem feedThatStallsReportsOverrun : Obligations.FeedThatStallsReportsOverrun := by
  intro bs s hserial
  refine ⟨_, exec_feed_serial hserial bs, fun hleft => ?_⟩
  have hlt : s.block.taken s.cfg (s.source ++ bs) < (s.source ++ bs).length :=
    Nat.not_le.mp (mt List.drop_eq_nil_iff.mpr hleft)
  have hlong : 14 < (s.block.receivedAll ((s.source ++ bs).take (s.block.taken s.cfg (s.source ++ bs)))).cursor := by
    have hcap := s.cfg.bufCap_ge
    have hfull := Block.full_of_taken_lt hlt
    omega
  refine ⟨congrArg (fun r => s.log ++ [Result.frameResult r]) (Block.verdict_of_long _ hlong),
    congrArg Block.cursor (Block.evaluated_of_long _ hlong), State.rxReady_of_short (Block.evaluated_cursor_lt _ _)⟩

/-! ### The steps of a FEED item -/

/-- No bytes are no delivery. -/
@[simp] theorem State.deliver_nil (s : State) : s.deliver [] = s := by
  unfold State.deliver
  split
  · simp
  · rfl

/-- The step of a FEED with a byte on offer and room is the RXB of that byte, with the FEED of the others back in the
schedule (41_evaluate.md R74). -/
theorem step_feed_of_offer {s : State} {it : Item} {rest : List Item} {bs : List Byte} {b : Byte} {q : List Byte}
    (hp : s.pending = it :: rest) (hi : decode it = .ok (.feed bs)) (hserial : s.cfg.transport = .serial)
    (hs : s.source ++ bs = b :: q) (hroom : s.block.cursor < s.cfg.bufCap) :
    step s = .next { s with block := s.block.received b, source := q, pending := ⟨.pseudoFeed, []⟩ :: rest } := by
  have hdeliver : ({ s with pending := rest } : State).deliver bs = { s with pending := rest, source := b :: q } := by
    rw [State.deliver_serial (s := { s with pending := rest }) hserial, hs]
  have hfire : ({ s with pending := rest, source := b :: q } : State).rxFire = true :=
    (State.rxFire_iff _).mpr ⟨hserial, by simp, hroom⟩
  have hfetch := State.fetch_cons hp hi
  rw [State.issue_feed, hdeliver, if_pos hfire] at hfetch
  rw [step_takes_held hfetch rfl hserial rfl hroom (Block.receive_eq b hroom), exec_idle]

/-- With no byte on offer, or no room, the step of a FEED is the EVAL that ends it. -/
theorem step_feed_of_no_offer {s : State} {it : Item} {rest : List Item} {bs : List Byte}
    (hp : s.pending = it :: rest) (hi : decode it = .ok (.feed bs))
    (hquiet : (State.deliver bs { s with pending := rest }).rxFire = false) :
    step s = exec .eval (State.deliver bs { s with pending := rest }) := by
  have hfetch := State.fetch_cons hp hi
  rw [State.issue_feed, if_neg (by simp [hquiet])] at hfetch
  exact step_of_fetch hfetch (.inl hquiet)

theorem exec_feed_of_no_offer {s : State} {bs : List Byte} (hquiet : (s.deliver bs).rxFire = false) :
    exec (.feed bs) s = exec .eval (s.deliver bs) := by
  rw [exec_feed, State.feedBytes, State.drain_of_no_fire hquiet, exec_eval]

/-- A FEED with a byte on offer and room is the RXB of that byte and the FEED of the others. -/
theorem exec_feed_of_offer {s : State} {bs : List Byte} {b : Byte} {q : List Byte}
    (hserial : s.cfg.transport = .serial) (hs : s.source ++ bs = b :: q) (hroom : s.block.cursor < s.cfg.bufCap) :
    exec (.feed bs) s = exec (.feed []) { s with block := s.block.received b, source := q } := by
  rw [exec_feed_serial hserial, exec_feed_serial (s := { s with block := s.block.received b, source := q }) hserial, hs,
    State.drained_cons (s := { s with source := b :: q }) rfl hroom]
  simp

/-- The one step of a FEED that takes no byte. -/
theorem runSteps_feed_of_no_offer {s : State} {it : Item} {rest : List Item} {bs : List Byte}
    (hp : s.pending = it :: rest) (hi : decode it = .ok (.feed bs))
    (hquiet : (State.deliver bs { s with pending := rest }).rxFire = false) :
    ∃ t, t.pending = rest ∧ t.source = (s.deliver bs).source ∧ runSteps 1 s = .next t ∧
      exec (.feed bs) { s with pending := rest } = .next t := by
  have hstep := step_feed_of_no_offer hp hi hquiet
  rw [exec_eval_eq] at hstep
  refine ⟨_, ?_, ?_, by rw [runSteps_succ_of_next hstep, runSteps],
    by rw [exec_feed_of_no_offer hquiet, exec_eval_eq]⟩
  · simp
  · simp [State.deliver_withPending]

/-- The steps of a FEED item, by induction on the bytes it could take: one step for each byte taken, and one for the EVAL,
do what `exec` says of the whole. -/
theorem runSteps_feed {q : List Byte} {s : State} {it : Item} {rest : List Item} {bs : List Byte}
    (hp : s.pending = it :: rest) (hi : decode it = .ok (.feed bs)) (hq : (s.deliver bs).source = q) :
    ∃ k t, t.pending = rest ∧ k + t.source.length = q.length ∧ runSteps (k + 1) s = .next t ∧
      exec (.feed bs) { s with pending := rest } = .next t := by
  induction q generalizing s it bs with
  | nil =>
    have hquiet : (State.deliver bs { s with pending := rest }).rxFire = false :=
      State.rxFire_of_nil (by rw [State.deliver_withPending]; exact hq)
    obtain ⟨t, htp, hsource, hrun, hexec⟩ := runSteps_feed_of_no_offer hp hi hquiet
    exact ⟨0, t, htp, by rw [hsource, hq]; rfl, hrun, hexec⟩
  | cons b q ih =>
    cases hfire : (State.deliver bs { s with pending := rest }).rxFire with
    | false =>
      obtain ⟨t, htp, hsource, hrun, hexec⟩ := runSteps_feed_of_no_offer hp hi hfire
      exact ⟨0, t, htp, by rw [hsource, hq, Nat.zero_add], hrun, hexec⟩
    | true =>
      rw [State.rxFire_iff] at hfire
      obtain ⟨hserial, _, hroom⟩ := hfire
      simp only [State.deliver_cfg, State.deliver_block] at hserial hroom
      rw [State.deliver_serial hserial] at hq
      obtain ⟨k, t, htp, hcount, hrun, hexec⟩ := ih (s := { s with
        block := s.block.received b, source := q, pending := ⟨.pseudoFeed, []⟩ :: rest }) (bs := []) rfl rfl
        (by rw [State.deliver_nil])
      refine ⟨k + 1, t, htp, by rw [List.length_cons]; omega, ?_, ?_⟩
      · rw [runSteps_succ_of_next (step_feed_of_offer hp hi hserial hq hroom), hrun]
      · rw [exec_feed_of_offer (s := { s with pending := rest }) hserial hq hroom]
        exact hexec

/-- Settles O29: the clauses about one step are the step with a byte on offer and the step without, and the run is by
induction on the bytes. -/
theorem feedItemRunsOneOperationAStep : Obligations.FeedItemRunsOneOperationAStep := by
  intro bs s it rest hp hi
  refine ⟨fun b q hserial hs hroom => ?_, fun hserial hquiet => ?_, fun hstub => ?_, ?_⟩
  · refine ⟨_, exec_rxb_receptive (s := { s with source := [], pending := ⟨.pseudoFeed, []⟩ :: rest })
      ⟨hserial, rfl, hroom⟩ b, step_feed_of_offer hp hi hserial hs hroom⟩
  · have hdeliver := State.deliver_serial (s := { s with pending := rest }) hserial bs
    have hfire : (State.deliver bs { s with pending := rest }).rxFire = false := by
      rw [hdeliver]
      rcases hquiet with hnone | hfull
      · exact State.rxFire_of_nil hnone
      · exact State.rxFire_of_full (s := { s with source := s.source ++ bs, pending := rest }) hfull
    have hstep := step_feed_of_no_offer hp hi hfire
    rw [hdeliver, exec_eval_eq] at hstep
    exact ⟨_, exec_eval_eq _, hstep⟩
  · have hdeliver := State.deliver_altStub (s := { s with pending := rest }) hstub bs
    have hstep := step_feed_of_no_offer hp hi (by rw [hdeliver]; exact State.rxFire_of_altStub hstub)
    rw [hdeliver, exec_eval_eq] at hstep
    exact ⟨_, exec_eval_eq _, hstep⟩
  · exact runSteps_feed hp hi rfl

end Sys2Proof.Machine
end

section
/-! STREAM (41_evaluate.md R77, R78): that no accumulation grows beyond fourteen bytes, then the block and the results of a
stream as functions of its bytes, and which fourteen bytes are reported. -/

namespace Sys2Proof.Machine

/-! ### No overrun -/

/-- With fewer than fourteen bytes accumulated, a handshake leaves at most fourteen. -/
theorem State.handOver_of_short {s t : State} (hshort : s.block.cursor < 14) (h : s.handOver = .ok t) :
    t.block.cursor ≤ 14 ∧ t.log = s.log ∧ t.cfg = s.cfg := by
  rcases s.handOver_cases with ⟨b, rest, k, _, _, hroom, hk, h'⟩ | ⟨_, h'⟩ <;> rw [h'] at h <;> cases h
  · rw [Block.receive_eq b hroom] at hk
    cases hk
    have hle := s.block.received_cursor_le b
    exact ⟨by simp only; omega, rfl, rfl⟩
  · exact ⟨by omega, rfl, rfl⟩

/-- With fewer than fourteen bytes accumulated, a handshake does not depend on `BUF_CAP` (R77). -/
theorem State.handOver_withCfg {s t : State} {c : Config} (hc : c.transport = s.cfg.transport)
    (hshort : s.block.cursor < 14) (h : s.handOver = .ok t) :
    ({ s with cfg := c } : State).handOver = .ok { t with cfg := c } := by
  have hcap := s.cfg.bufCap_ge
  have hcap' := c.bufCap_ge
  rcases s.handOver_cases with ⟨b, rest, k, hserial, hs, hroom, hk, h'⟩ | ⟨hquiet, h'⟩ <;> rw [h'] at h <;> cases h
  · rw [Block.receive_eq b hroom] at hk
    cases hk
    have hroom' : s.block.cursor < c.bufCap := by omega
    exact State.handOver_front (s := { s with cfg := c }) (hc.trans hserial) hs hroom' (Block.receive_eq b hroom')
  · rcases hquiet with hstub | hnone | hfull
    · exact State.handOver_altStub (s := { s with cfg := c }) (hc.trans hstub)
    · exact State.handOver_nil (s := { s with cfg := c }) hnone
    · omega

/-- A FEED1 is a handshake of the byte source, which the byte has joined, and then an EVAL. -/
theorem State.offerByteEval_eq {s u : State} {b : Byte} (h : (s.deliver [b]).handOver = .ok u) :
    s.offerByteEval b = .ok u.afterEval := by
  rw [State.offerByteEval_of_offerByte (t := u) h, State.evaluate_eq]

theorem State.deliver_withCfg {c : Config} {s : State} (hc : c.transport = s.cfg.transport) (bs : List Byte) :
    ({ s with cfg := c } : State).deliver bs = { s.deliver bs with cfg := c } := by
  cases ht : s.cfg.transport with
  | serial => rw [State.deliver_serial ht, State.deliver_serial (s := { s with cfg := c }) (hc.trans ht)]
  | altStub => rw [State.deliver_altStub ht, State.deliver_altStub (s := { s with cfg := c }) (hc.trans ht)]

/-- The result of a FEED1 with fewer than fourteen bytes accumulated before it. -/
theorem State.offerByteEval_of_short {s : State} (hshort : s.block.cursor < 14) (b : Byte) :
    ∃ t r, s.offerByteEval b = .ok t ∧ t.log = s.log ++ [.frameResult r] ∧ r ≠ .overrun ∧ t.block.cursor < 14 ∧
      t.cfg = s.cfg ∧ ∀ c : Config, c.transport = s.cfg.transport →
        ({ s with cfg := c } : State).offerByteEval b = .ok { t with cfg := c } := by
  obtain ⟨u, hu⟩ := (s.deliver [b]).handOver_completes
  obtain ⟨hcursor, hlog, hcfg⟩ := State.handOver_of_short (by simpa using hshort) hu
  refine ⟨u.afterEval, _, State.offerByteEval_eq hu, by rw [State.afterEval_log, hlog, State.deliver_log],
    Block.verdict_ne_overrun _ hcursor, Block.evaluated_cursor_lt _ _, by rw [State.afterEval_cfg, hcfg, State.deliver_cfg],
    fun c hc => ?_⟩
  have hu' := State.handOver_withCfg (s := s.deliver [b]) (by simpa using hc) (by simpa using hshort) hu
  rw [← State.deliver_withCfg hc] at hu'
  exact State.offerByteEval_eq hu'

/-- Settles O33: by induction on the bytes, each FEED1 starts and ends with fewer than fourteen bytes accumulated. -/
theorem streamNeverOverruns : Obligations.StreamNeverOverruns := by
  intro bs
  induction bs with
  | nil => exact fun s n h hshort => ⟨s, [], rfl, by simp, rfl, by simp, hshort, rfl⟩
  | cons b bs ih =>
    intro s n h hshort
    obtain ⟨u, r, hu, hlog, hr, hcursor, hcfg, hother⟩ := State.offerByteEval_of_short hshort b
    obtain ⟨t, rs, ht, htlog, hlen, hover, htcursor, htother⟩ := ih u n h hcursor
    refine ⟨t, .frameResult r :: rs, ?_, ?_, by rw [List.length_cons, List.length_cons, hlen], ?_, htcursor, ?_⟩
    · rw [exec_stream, State.streamBytes_cons_of_ok hu]; exact ht
    · rw [htlog, hlog, List.append_assoc, List.singleton_append]
    · simpa [hover] using Ne.symm hr
    · rw [hcfg] at htother
      rw [exec_stream, State.streamBytes_cons_of_ok (hother ⟨n, h, s.cfg.transport⟩ rfl)]
      exact htother

/-! ### A stream as a function of its bytes -/

theorem State.offerByteEval_receptive {s : State} (hs : s.Receptive) (b : Byte) : s.offerByteEval b = .ok (s.fed b) := by
  have hoffer := State.offerByte_receptive hs.serial hs.nothing_held hs.room (Block.receive_eq b hs.room)
  rw [State.offerByteEval_of_offerByte hoffer, State.evaluate_eq]
  rfl

/-- Where RXB is enabled, a STREAM is each of its bytes with its EVAL. -/
theorem exec_stream_receptive {s : State} (hs : s.Receptive) (bs : List Byte) :
    exec (.stream bs) s = .next (s.fedAll bs) := by
  induction bs generalizing s with
  | nil => rfl
  | cons b bs ih =>
    rw [exec_stream, State.streamBytes_cons_of_ok (State.offerByteEval_receptive hs b)]
    exact ih (hs.fed b)

/-- The block after each of the bytes with its EVAL. -/
def Block.fedAll (n : Nat) (bs : List Byte) (k : Block) : Block :=
  bs.foldl (fun l b => (l.received b).evaluated n) k

/-- The results of the EVALs, one for each byte. -/
def Block.verdicts (n : Nat) : List Byte → Block → List FrameResult
  | [], _ => []
  | b :: bs, k => (k.received b).verdict n :: Block.verdicts n bs ((k.received b).evaluated n)

@[simp] theorem Block.fedAll_nil (n : Nat) (k : Block) : k.fedAll n [] = k := rfl

@[simp] theorem Block.fedAll_cons (n : Nat) (b : Byte) (bs : List Byte) (k : Block) :
    k.fedAll n (b :: bs) = ((k.received b).evaluated n).fedAll n bs := rfl

@[simp] theorem Block.verdicts_nil (n : Nat) (k : Block) : k.verdicts n [] = [] := rfl

@[simp] theorem Block.verdicts_cons (n : Nat) (b : Byte) (bs : List Byte) (k : Block) :
    k.verdicts n (b :: bs) = (k.received b).verdict n :: ((k.received b).evaluated n).verdicts n bs := rfl

theorem State.fedAll_eq (bs : List Byte) (s : State) :
    s.fedAll bs = { s with block := s.block.fedAll s.resets bs,
                           log := s.log ++ (s.block.verdicts s.resets bs).map .frameResult } := by
  induction bs generalizing s with
  | nil => simp
  | cons b bs ih =>
    rw [State.fedAll_cons, ih]
    simp [State.fed, State.afterEval, State.raise]

theorem Block.fedAll_append (n : Nat) (bs cs : List Byte) (k : Block) :
    k.fedAll n (bs ++ cs) = (k.fedAll n bs).fedAll n cs := List.foldl_append

theorem Block.verdicts_append (n : Nat) (bs cs : List Byte) (k : Block) :
    k.verdicts n (bs ++ cs) = k.verdicts n bs ++ (k.fedAll n bs).verdicts n cs := by
  induction bs generalizing k with
  | nil => rfl
  | cons b bs ih => simp [ih]

@[simp] theorem Block.verdicts_length (n : Nat) (bs : List Byte) (k : Block) :
    (k.verdicts n bs).length = bs.length := by
  induction bs generalizing k with
  | nil => rfl
  | cons b bs ih => simp [ih]

/-- The result at a byte is that of the EVAL on the block that the bytes before it leave. -/
theorem Block.verdicts_getElem? {n : Nat} {bs : List Byte} {k : Block} {j : Nat} (hj : j < bs.length) :
    (k.verdicts n bs)[j]? = some (((k.fedAll n (bs.take j)).received bs[j]).verdict n) := by
  induction bs generalizing k j with
  | nil => exact absurd hj (Nat.not_lt_zero j)
  | cons b bs ih =>
    cases j with
    | zero => rfl
    | succ j => simpa using ih (k := (k.received b).evaluated n) (Nat.lt_of_succ_lt_succ hj)

theorem Block.fedAll_cursor_lt {k : Block} (n : Nat) (bs : List Byte) (hshort : k.cursor < 14) :
    (k.fedAll n bs).cursor < 14 := by
  induction bs generalizing k with
  | nil => exact hshort
  | cons b bs ih => exact ih (Block.evaluated_cursor_lt _ _)

/-- Bytes too few to complete an accumulation: every EVAL between them is an INCOMPLETE that changes nothing. -/
theorem Block.fedAll_of_short {k : Block} {bs : List Byte} (n : Nat) (hshort : k.cursor + bs.length < 14) :
    k.fedAll n bs = k.receivedAll bs ∧ k.verdicts n bs = List.replicate bs.length .incomplete := by
  induction bs generalizing k with
  | nil => exact ⟨rfl, rfl⟩
  | cons b bs ih =>
    have hle := k.received_cursor_le b
    rw [List.length_cons] at hshort
    have hb : (k.received b).cursor < 14 := by omega
    obtain ⟨hblock, hverdicts⟩ := ih (k := k.received b) (by omega)
    rw [Block.fedAll_cons, Block.verdicts_cons, Block.evaluated_of_short n hb, Block.verdict_of_short n hb, hblock,
      hverdicts]
    exact ⟨rfl, rfl⟩

/-- The same from every block where the first of at most thirteen bytes is a START. -/
theorem Block.fedAll_of_start {bs : List Byte} (n : Nat) (k : Block) (hshort : bs.length < 13) :
    k.fedAll n (START :: bs) = k.receivedAll (START :: bs) ∧
      k.verdicts n (START :: bs) = List.replicate (bs.length + 1) .incomplete := by
  have hone : k.restarted.cursor < 14 := by simp
  obtain ⟨hblock, hverdicts⟩ := Block.fedAll_of_short (k := k.restarted) (bs := bs) n (by simp; omega)
  rw [Block.fedAll_cons, Block.verdicts_cons, Block.received_start, Block.evaluated_of_short n hone,
    Block.verdict_of_short n hone, hblock, hverdicts]
  exact ⟨by simp, rfl⟩

/-- From every block, the stream of a well-formed frame is thirteen INCOMPLETEs and a VALID, with the frame held. -/
theorem Block.fedAll_frame {raw : List Byte} (hok : frameOk raw = true) (n : Nat) (k : Block) :
    k.verdicts n raw = List.replicate 13 .incomplete ++ [.valid] ∧ (k.fedAll n raw).frameBytes n = raw := by
  obtain ⟨hverdict, hframe, _⟩ := Block.evaluated_frame hok n k
  obtain ⟨hs, rfl, hlen, _⟩ := (frameOk_iff_shape raw).mp hok
  obtain ⟨hblock, hverdicts⟩ := Block.fedAll_of_start (bs := hs) n k (by omega)
  rw [← List.cons_append, Block.receivedAll_append] at hverdict hframe
  rw [← List.cons_append, Block.verdicts_append, Block.fedAll_append, hblock, hverdicts, hlen]
  exact ⟨congrArg (fun r => _ ++ [r]) hverdict, hframe⟩

/-! ### Two frames back to back -/

theorem Block.taken_append {c : Config} {bs : List Byte} {k : Block} (hall : k.taken c bs = bs.length)
    (cs : List Byte) : k.taken c (bs ++ cs) = bs.length + (k.receivedAll bs).taken c cs := by
  induction bs generalizing k with
  | nil => simp
  | cons b bs ih =>
    have hroom : k.cursor < c.bufCap := Block.room_of_taken_pos (by rw [hall]; exact Nat.succ_pos _)
    rw [Block.taken_cons_of_room b bs hroom, List.length_cons] at hall
    rw [List.cons_append, Block.taken_cons_of_room _ _ hroom, ih (Nat.succ.inj hall), List.length_cons,
      Block.receivedAll_cons]
    omega

/-- Where RXB is enabled, a drain takes every byte of a well-formed frame, since its START empties the accumulation. -/
theorem Block.taken_frame {c : Config} {raw : List Byte} {k : Block} (hok : frameOk raw = true)
    (hroom : k.cursor < c.bufCap) : k.taken c raw = raw.length := by
  have hcap := c.bufCap_ge
  obtain ⟨hs, rfl, hlen, _⟩ := (frameOk_iff_shape raw).mp hok
  rw [Block.taken_cons_of_room _ _ hroom, Block.received_start, Block.taken_of_room (by simp [hlen]; omega),
    List.length_cons]

/-- Fourteen bytes do not fill the buffer, so a drain takes two frames back to back (41_evaluate.md R78). -/
theorem Block.taken_two_frames {c : Config} {f g : List Byte} {k : Block} (hf : frameOk f = true)
    (hg : frameOk g = true) (hroom : k.cursor < c.bufCap) : k.taken c (f ++ g) = (f ++ g).length := by
  have hcap := c.bufCap_ge
  have hcursor : (k.receivedAll f).cursor = 14 := by
    rw [← Block.accumulation_length 0, Block.receivedAll_frame hf, length_of_frameOk hf]
  rw [Block.taken_append (Block.taken_frame hf hroom), Block.taken_frame hg (by omega), List.length_append]

theorem State.drained_of_all_taken {s : State} (hall : s.block.taken s.cfg s.source = s.source.length) :
    s.drained = { s with block := s.block.receivedAll s.source, source := [] } := by
  rw [State.drained, hall, List.take_length, List.drop_length]

/-- Settles O37: the second START empties the accumulation before the one EVAL of the FEED, and after the fourteenth EVAL
of the STREAM. -/
theorem backToBackFramesInOneFeedLoseTheFirst : Obligations.BackToBackFramesInOneFeedLoseTheFirst := by
  intro s f g hs hf hg
  constructor
  · obtain ⟨hverdict, hframe, _⟩ := Block.evaluated_frame hg s.resets (s.block.receivedAll f)
    rw [← Block.receivedAll_append] at hverdict hframe
    have hdrained := State.drained_of_all_taken (s := { s with source := f ++ g })
      (Block.taken_two_frames hf hg hs.room)
    refine ⟨_, exec_feed_serial hs.serial _, ?_⟩
    rw [hs.nothing_held, List.nil_append, hdrained]
    exact ⟨congrArg (fun r => s.log ++ [Result.frameResult r]) hverdict, hframe⟩
  · obtain ⟨hfirst, _⟩ := Block.fedAll_frame hf s.resets s.block
    obtain ⟨hsecond, hframe⟩ := Block.fedAll_frame hg s.resets (s.block.fedAll s.resets f)
    rw [← Block.fedAll_append] at hframe
    refine ⟨_, exec_stream_receptive hs _, ?_⟩
    rw [State.fedAll_eq]
    refine ⟨hframe, ?_⟩
    simp [Block.verdicts_append, hfirst, hsecond]

/-! ### Which bytes are reported -/

/-- While a frame is in progress the bytes accumulated are the last ones received. -/
def Block.Tracks (n : Nat) (received : List Byte) (k : Block) : Prop :=
  k.inFrame = true → k.accumulation n <:+ received

/-- After a byte the bytes accumulated are the last ones received, but where the byte is dropped. -/
theorem Block.Tracks.received {n : Nat} {past : List Byte} {k : Block} (htracks : k.Tracks n past) (b : Byte) :
    (k.received b).accumulation n <:+ past ++ [b] ∨ (k.inFrame = false ∧ k.received b = k) := by
  rcases k.received_inv b with ⟨rfl, hk⟩ | ⟨_, hin, hk⟩ | ⟨_, hout, hk⟩
  · left
    rw [hk, Block.restarted_accumulation]
    exact List.suffix_append past _
  · left
    rw [hk, Block.appended_accumulation, List.suffix_append_self_iff]
    exact htracks hin
  · exact .inr ⟨hout, hk⟩

/-- An EVAL leaves the bytes accumulated as they are, or empties them. -/
theorem Block.evaluated_accumulation (n : Nat) (k : Block) :
    (k.evaluated n).accumulation n = k.accumulation n ∨ (k.evaluated n).accumulation n = [] := by
  rcases k.cursor_cases with h | h | h
  · exact .inr (Block.accumulation_eq_nil (by rw [Block.evaluated_of_long n h, Block.discarded_cursor]))
  · exact .inr (Block.accumulation_eq_nil (by rw [Block.evaluated_of_complete n h, Block.judged_cursor]))
  · exact .inl (by rw [Block.evaluated_of_short n h])

theorem Block.Tracks.fedAll {n : Nat} {past : List Byte} {k : Block} (htracks : k.Tracks n past) (bs : List Byte) :
    (k.fedAll n bs).Tracks n (past ++ bs) := by
  induction bs generalizing past k with
  | nil => simpa using htracks
  | cons b bs ih =>
    have hnext : ((k.received b).evaluated n).Tracks n (past ++ [b]) := by
      intro hin
      rw [Block.evaluated_inFrame] at hin
      rcases htracks.received b with hsuffix | ⟨hout, hk⟩
      · rcases (k.received b).evaluated_accumulation n with hsame | hnil
        · rw [hsame]; exact hsuffix
        · rw [hnil]; exact List.nil_suffix
      · rw [hk, hout] at hin; cases hin
    simpa using ih hnext

/-- The EVAL after a byte returns VALID exactly when the last bytes received are a well-formed frame: the bytes accumulated
are the last ones received, and a frame is accumulated from its START on whatever came before. -/
theorem Block.verdict_valid_iff_suffix {n : Nat} {past : List Byte} {b : Byte} {k : Block} (hshort : k.cursor < 14)
    (htracks : k.Tracks n []) :
    ((k.fedAll n past).received b).verdict n = .valid ↔ ∃ w, frameOk w = true ∧ w <:+ past ++ [b] := by
  constructor
  · intro hvalid
    obtain ⟨hfull, hok⟩ := (Block.verdict_eq_valid _ _).mp hvalid
    rw [Block.accumulated_eq hfull] at hok
    refine ⟨_, hok, ?_⟩
    rcases (htracks.fedAll past).received b with hsuffix | ⟨_, hk⟩
    · simpa using hsuffix
    · have hlt := Block.fedAll_cursor_lt n past hshort
      rw [hk] at hfull
      omega
  · rintro ⟨w, hok, before, hw⟩
    obtain ⟨hverdict, _, _⟩ := Block.evaluated_frame hok n (k.fedAll n before)
    obtain ⟨hs, rfl, hlen, _⟩ := (frameOk_iff_shape w).mp hok
    rw [← List.cons_append, ← List.append_assoc] at hw
    obtain ⟨rfl, hb⟩ := List.append_inj' hw rfl
    obtain rfl : END = b := by simpa using hb
    obtain ⟨hblock, _⟩ := Block.fedAll_of_start (bs := hs) n (k.fedAll n before) (by omega)
    rw [← List.cons_append, Block.receivedAll_append] at hverdict
    rw [Block.fedAll_append, hblock]
    exact hverdict

/-- The last fourteen bytes up to byte `j` are those from `j - 13` on. -/
theorem suffix_take_succ_iff {bs w : List Byte} {j : Nat} (hj : j < bs.length) (hw : w.length = 14) :
    w <:+ bs.take (j + 1) ↔ 13 ≤ j ∧ w = (bs.drop (j - 13)).take 14 := by
  have hlen : (bs.take (j + 1)).length = j + 1 := by simp; omega
  rw [List.suffix_iff_eq_drop, hlen, hw, List.drop_take]
  constructor
  · intro heq
    have hcount := congrArg List.length heq
    simp at hcount
    have hlow : 13 ≤ j := by omega
    rw [heq, show j + 1 - 14 = j - 13 by omega, show j + 1 - (j - 13) = 14 by omega]
    exact ⟨hlow, rfl⟩
  · rintro ⟨hlow, rfl⟩
    rw [show j + 1 - 14 = j - 13 by omega, show j + 1 - (j - 13) = 14 by omega]

/-- Settles O34: `Block.verdict_valid_iff_suffix` for the bytes up to `j`, whose last fourteen are those from `j - 13`. -/
theorem streamReportsExactlyTheWellFormedFrames : Obligations.StreamReportsExactlyTheWellFormedFrames := by
  intro bs s hs hzero hout
  refine ⟨_, _, exec_stream_receptive hs bs, by rw [State.fedAll_eq], by simp, fun j hj => ?_⟩
  have htracks : s.block.Tracks s.resets [] := fun hin => by simp [hout] at hin
  have htaken : bs.take j ++ [bs[j]] = bs.take (j + 1) := (List.take_succ_eq_append_getElem hj).symm
  have hlast : ((s.block.verdicts s.resets bs).map Result.frameResult)[j]? = some (.frameResult .valid) ↔
      ∃ w, frameOk w = true ∧ w <:+ bs.take (j + 1) := by
    rw [List.getElem?_map, Block.verdicts_getElem? hj, ← htaken,
      ← Block.verdict_valid_iff_suffix (by omega) htracks]
    simp
  rw [hlast]
  constructor
  · rintro ⟨w, hok, hsuffix⟩
    obtain ⟨hlow, rfl⟩ := (suffix_take_succ_iff hj (length_of_frameOk hok)).mp hsuffix
    exact ⟨hlow, hok⟩
  · rintro ⟨hlow, hok⟩
    exact ⟨_, hok, (suffix_take_succ_iff hj (length_of_frameOk hok)).mpr ⟨hlow, rfl⟩⟩

end Sys2Proof.Machine
end

section
/-! The extractor (42_extract.md): its answer as a function of `FVALID` and of the bytes of `FRAME` (R87, R95), the six
pairs of a well-formed frame (R83, R84), and the operations that can change the answer (R92). -/

namespace Sys2Proof.Machine

/-! ### The answer and the flag -/

/-- With `FVALID = 0` the answer is the bare failure, whatever the bytes (R87). -/
theorem State.extractor_of_invalid {s : State} (h : s.block.fvalid = false) : s.extractor = .xerr := by
  rw [State.extractor, h, extractorOutputs_false]

/-- With `FVALID = 1` the answer is OK with what the pairs of `FRAME` stand for (R83 to R86). -/
theorem State.extractor_of_valid {s : State} (h : s.block.fvalid = true) :
    s.extractor = extractOk (pairByte s.frameBytes) := by
  rw [State.extractor, h, extractorOutputs_true]

/-- While the extractor answers XERR, `xst` is 1 and the data lines have no value (R87, log 20). -/
theorem State.ports_of_extractor_xerr {s : State} (h : s.extractor = .xerr) :
    s.xstPort = true ∧ s.cardPort = none ∧ s.csumPort = none ∧ s.p6Port = none := by
  simp [State.xstPort, State.cardPort, State.csumPort, State.p6Port, h, ExtractResult.xst]

/-- The port `xst` is 1 exactly while `FVALID = 0` (60_exceptions.md R95). -/
theorem State.xstPort_eq (s : State) : s.xstPort = !s.block.fvalid := by
  cases h : s.block.fvalid with
  | true =>
    obtain ⟨hxst, _⟩ := State.ports_of_extractor_ok (State.extractor_of_valid h)
    exact hxst
  | false =>
    obtain ⟨hxst, _⟩ := State.ports_of_extractor_xerr (State.extractor_of_invalid h)
    exact hxst

/-- Settles O39: without `FVALID` the answer is XERR, which has no data to put on the lines. -/
theorem xtrOnAnInvalidFrameIsXerr : Obligations.XtrOnAnInvalidFrameIsXerr := by
  intro s hinvalid
  have hxerr := State.extractor_of_invalid hinvalid
  refine ⟨?_, State.ports_of_extractor_xerr hxerr⟩
  rw [exec_xtr, hxerr]
  rfl

/-! ### The pairs of a well-formed frame -/

theorem State.frameBytes_getElem? (s : State) {i : Nat} (hi : i < 14) : s.frameBytes[i]? = some (s.frameByte i) := by
  simp [State.frameBytes_eq, hi]

/-- The characters of the six pairs of a well-formed frame are hex digits (41_evaluate.md R68). -/
theorem State.isHex_frameByte {s : State} (hok : frameOk s.frameBytes = true) {i : Nat} (hlow : 1 ≤ i) (hhigh : i ≤ 12) :
    isHex (s.frameByte i) = true := by
  obtain ⟨_, _, _, hhex⟩ := (frameOk_iff s.frameBytes).mp hok
  exact hhex i hlow hhigh _ (s.frameBytes_getElem? (by omega))

theorem pairByte_of_pairAt {raw : List Byte} {k : Nat} {v : Byte} (h : pairAt raw k = some v) : pairByte raw k = v := by
  rw [pairByte, h]

/-- Each of the six pairs of a well-formed frame has a value, `hexval(high) * 16 + hexval(low)` (R83). -/
theorem State.pair_of_frameOk {s : State} (hok : frameOk s.frameBytes = true) {k : Nat} (hk : k < 6) :
    pairAt s.frameBytes k = some (pairByte s.frameBytes k) ∧
      (pairByte s.frameBytes k).toNat
        = digitValue (s.frameByte (1 + 2 * k)) * 16 + digitValue (s.frameByte (2 + 2 * k)) := by
  obtain ⟨v, hv, hnum⟩ := pairval_of_isHex (s.isHex_frameByte hok (i := 1 + 2 * k) (by omega) (by omega))
    (s.isHex_frameByte hok (i := 2 + 2 * k) (by omega) (by omega))
  have hpair : pairAt s.frameBytes k = some v := by
    simp only [pairAt, s.frameBytes_getElem? (show 1 + 2 * k < 14 by omega),
      s.frameBytes_getElem? (show 2 + 2 * k < 14 by omega), hv]
  rw [pairByte_of_pairAt hpair]
  exact ⟨hpair, hnum⟩

/-- `extract` has a value where all six pairs have one (R88, R90). -/
theorem extract_of_pairs {raw : List Byte} (h : ∀ k, k < 6 → (pairAt raw k).isSome = true) :
    extract raw true = some (extractOk (pairByte raw)) := by
  have hall : (List.range 6).all (fun k => (pairAt raw k).isSome) = true :=
    List.all_eq_true.mpr fun k hk => h k (List.mem_range.mp hk)
  rw [extract, if_pos rfl, if_pos hall]

/-- Settles O38: the answer is made of the six pairs of `FRAME`, and each is assembled from two hex digits. -/
theorem xtrDecodesThePairsOfAValidFrame : Obligations.XtrDecodesThePairsOfAValidFrame := by
  intro s hvalid hok
  have hvalue : ∀ k, k < 6 → (pairByte s.frameBytes k).toNat
      = digitValue (s.frameByte (1 + 2 * k)) * 16 + digitValue (s.frameByte (2 + 2 * k)) := fun k hk =>
    (State.pair_of_frameOk hok hk).2
  have hextract : extract s.frameBytes true = some (extractOk (pairByte s.frameBytes)) := extract_of_pairs fun k hk => by
    rw [(State.pair_of_frameOk hok hk).1, Option.isSome_some]
  refine ⟨_, _, _, ?_, hvalue 0 (by decide), hvalue 1 (by decide), hvalue 2 (by decide), hvalue 3 (by decide),
    hvalue 4 (by decide), rfl, hvalue 5 (by decide), hextract⟩
  rw [exec_xtr, State.extractor_of_valid hvalid]
  rfl

/-! ### When the answer changes -/

/-- The extractor shows nothing but the capture register and its flag (10_state.md R21). -/
theorem State.SameFrame.extractor_eq {s t : State} (h : s.SameFrame t) : t.extractor = s.extractor := by
  obtain ⟨hframe, hfvalid⟩ := h
  exact extractorReadsTheFrameAlone t s (fun i _ => hframe i) hfvalid

/-- An EVAL sets `FVALID` at a VALID, clears it at a MALFORMED or an OVERRUN, and leaves the block alone at an
INCOMPLETE (41_evaluate.md R69 to R71). -/
theorem Block.verdict_cases (n : Nat) (k : Block) :
    (k.verdict n = .valid ∧ (k.evaluated n).fvalid = true) ∨
      ((k.verdict n = .malformed ∨ k.verdict n = .overrun) ∧ (k.evaluated n).fvalid = false) ∨
      (k.verdict n = .incomplete ∧ k.evaluated n = k) := by
  rcases k.cursor_cases with hlong | hfull | hshort
  · rw [Block.verdict_of_long n hlong, Block.evaluated_of_long n hlong]
    exact .inr (.inl ⟨.inr rfl, rfl⟩)
  · rw [Block.verdict_of_complete n hfull, Block.evaluated_of_complete n hfull, Block.judged_fvalid]
    cases frameOk (k.accumulated n)
    · exact .inr (.inl ⟨.inl rfl, rfl⟩)
    · exact .inl ⟨rfl, rfl⟩
  · exact .inr (.inr ⟨Block.verdict_of_short n hshort, Block.evaluated_of_short n hshort⟩)

/-- Settles O42: the operations of the first clause write neither `FRAME` nor `FVALID`; an EVAL does what
`Block.verdict_cases` says, and `xst` is the negation of `FVALID`. -/
theorem extractorChangesOnlyAtAJudgement : Obligations.ExtractorChangesOnlyAtAJudgement := by
  refine ⟨fun i s t hi ht => ?_, fun s t r ht hlog => ?_⟩
  · rcases hi with ⟨b, hb⟩ | rfl | rfl | ⟨rfl, hshort⟩
    · obtain ⟨_, hreceive, _⟩ := writeAccessTable
      obtain ⟨_, hsame⟩ := hreceive i b s t hb ht
      exact hsame.extractor_eq
    · rw [exec_xtr] at ht
      cases ht
      exact State.raise_extractor _ s
    · rw [exec_idle] at ht
      cases ht
      rfl
    · rw [exec_eval, State.evaluate_of_short hshort, outcome_ok] at ht
      cases ht
      exact State.raise_extractor _ s
  · rw [exec_eval_eq] at ht
    cases ht
    obtain rfl : s.block.verdict s.resets = r := by simpa using hlog
    rw [State.xstPort_eq, State.afterEval_block]
    rcases s.block.verdict_cases s.resets with ⟨hr, hset⟩ | ⟨hr | hr, hclear⟩ | ⟨hr, hsame⟩
    · simp [hr, hset]
    · simp [hr, hclear]
    · simp [hr, hclear]
    · have hkept : s.afterEval.extractor = s.extractor := by
        rw [State.afterEval, hsame, State.raise_extractor]
      simp [hr, hkept]

end Sys2Proof.Machine
end

section
/-! Exceptions (60_exceptions.md): every operation completes (R93, R50), the 2-bit code of each result (R94), and the
status of the extractor (R95). -/

namespace Sys2Proof.Machine

/-! ### Every operation completes -/

theorem State.offerByte_completes (b : Byte) (s : State) : ∃ t, s.offerByte b = .ok t :=
  (s.deliver [b]).handOver_completes

/-- A FEED completes: its drain does, and so does the EVAL that ends it (41_evaluate.md R74). -/
theorem State.feedBytes_completes (bs : List Byte) (s : State) : ∃ t, s.feedBytes bs = .ok t := by
  obtain ⟨u, hdrain⟩ := (s.deliver bs).drain_completes
  rw [State.feedBytes, hdrain]
  exact u.evaluate_completes

/-- Settles O47: an RXB row is the offer of its byte; of the other rows each answers a state outright or runs a shared
operation that completes, and a STREAM is its FEED1s (`streamIsOneFeedPerByte`). -/
theorem everyOperationCompletes : Obligations.EveryOperationCompletes := by
  intro i s
  cases hoffer : offeredByte i with
  | some b =>
    obtain ⟨t, ht⟩ := s.offerByte_completes b
    exact ⟨t, by rw [exec_offered hoffer, ht, outcome_ok]⟩
  | none =>
    cases i with
    | rst offer ev => exact ⟨_, exec_rst offer ev s⟩
    | idle => exact ⟨s, exec_idle s⟩
    | eval => exact ⟨_, exec_eval_eq s⟩
    | feed1 b => exact exec_feed1_completes b s
    | xtr => exact ⟨_, exec_xtr s⟩
    | feed bs =>
      obtain ⟨t, ht⟩ := s.feedBytes_completes bs
      exact ⟨t, by rw [exec_feed, ht, outcome_ok]⟩
    | stream bs =>
      obtain ⟨hstream, _⟩ := streamIsOneFeedPerByte
      obtain ⟨t, ht, _⟩ := hstream bs s
      exact ⟨t, ht⟩
    | frame raw => exact ⟨_, exec_frame raw s⟩
    | pair h l => exact ⟨_, exec_pair h l s⟩
    | _ => cases hoffer

/-! ### The code of a result -/

/-- The four results have four codes (R94). -/
theorem FrameResult.code_inj {r q : FrameResult} : r.code = q.code ↔ r = q := by
  cases r <;> cases q <;> decide

/-- `Invalid`, the high bit of the code, is 1 for MALFORMED and for OVERRUN (R94). -/
theorem FrameResult.isInvalid_iff (r : FrameResult) : r.isInvalid = true ↔ r = .malformed ∨ r = .overrun := by
  cases r <;> decide

theorem judgement_ne_incomplete (ok : Bool) : judgement ok ≠ .incomplete := by cases ok <;> decide

theorem judgement_eq_malformed (ok : Bool) : judgement ok = .malformed ↔ ok = false := by cases ok <;> decide

/-- INCOMPLETE is the result for fewer than fourteen bytes, and for nothing else (41_evaluate.md R71). -/
theorem Block.verdict_eq_incomplete (n : Nat) (k : Block) : k.verdict n = .incomplete ↔ k.cursor < 14 := by
  rcases k.cursor_cases with hlong | hfull | hshort
  · simp [Block.verdict_of_long n hlong, Nat.le_of_lt hlong]
  · simp [Block.verdict_of_complete n hfull, hfull, judgement_ne_incomplete]
  · simp [Block.verdict_of_short n hshort, hshort]

/-- MALFORMED is the result for fourteen bytes that are no frame, and for nothing else (41_evaluate.md R70). -/
theorem Block.verdict_eq_malformed (n : Nat) (k : Block) :
    k.verdict n = .malformed ↔ k.cursor = 14 ∧ frameOk (k.accumulated n) = false := by
  rcases k.cursor_cases with hlong | hfull | hshort
  · simp [Block.verdict_of_long n hlong, Nat.ne_of_gt hlong]
  · simp [Block.verdict_of_complete n hfull, hfull, judgement_eq_malformed]
  · simp [Block.verdict_of_short n hshort, Nat.ne_of_lt hshort]

/-- OVERRUN is the result for more than fourteen bytes, and for nothing else (41_evaluate.md R69). -/
theorem Block.verdict_eq_overrun (n : Nat) (k : Block) : k.verdict n = .overrun ↔ 14 < k.cursor := by
  constructor
  · intro hoverrun
    by_contra hle
    exact Block.verdict_ne_overrun n (Nat.not_lt.mp hle) hoverrun
  · exact Block.verdict_of_long n

/-- Settles O25: the result of an EVAL is `Block.verdict`, and its code tells which of the four it is. -/
theorem evalResultCodes : Obligations.EvalResultCodes := by
  intro s
  have hcode (q : FrameResult) : (s.block.verdict s.resets).code = q.code ↔ s.block.verdict s.resets = q :=
    FrameResult.code_inj
  refine ⟨_, s.block.verdict s.resets, exec_eval_eq s, s.afterEval_log, ?_, ?_, ?_, ?_, FrameResult.isInvalid_iff _⟩
  · exact (hcode .incomplete).trans (Block.verdict_eq_incomplete _ _)
  · exact (hcode .valid).trans (Block.verdict_eq_valid _ _)
  · exact (hcode .malformed).trans (Block.verdict_eq_malformed _ _)
  · exact (hcode .overrun).trans (Block.verdict_eq_overrun _ _)

/-! ### The status of the extractor -/

/-- Settles O40: the status of the answer is the port `xst`, which is the negation of `FVALID`. -/
theorem xtrStatusIsTheValidityFlag : Obligations.XtrStatusIsTheValidityFlag := by
  intro s
  have hstatus : s.extractor.xst = !s.block.fvalid := s.xstPort_eq
  exact ⟨s.extractor, exec_xtr s, rfl, by rw [hstatus, Bool.not_eq_true']⟩

end Sys2Proof.Machine
end

section
/-! Reset (70_reset_and_hazards.md): the state that an RST leaves (R109), what the block does next (R110), and the
parameters, which no step changes (R111). -/

namespace Sys2Proof.Machine

/-! ### The parameters -/

/-- Settles O53: no shared operation writes the parameters, and a step is made of these. -/
theorem noStepChangesTheParameters : Obligations.NoStepChangesTheParameters := by
  intro s t ht
  exact step_keeps (P := fun u => u.cfg = s.cfg)
    (pending := fun _ _ h => h)
    (source := fun _ _ h => h)
    (raise := fun u r h => (u.raise_cfg r).trans h)
    (receive := fun _ _ _ h _ _ => h)
    (evaluate := fun _ _ _ h _ => h)
    (reset := fun u h => u.resetBlock_cfg.trans h) s t rfl ht

/-! ### The state that an RST leaves -/

/-- Whatever came before, the block is the reset block after an RST (R109). -/
theorem block_of_exec_rst {offer : Option Byte} {ev : Bool} {s t : State} (h : exec (.rst offer ev) s = .next t) :
    t.block = Block.reset := by
  rw [exec_rst] at h
  cases h
  exact State.resetBlock_block _

/-- Settles O9: the outcome is `State.resetBlock`, behind a delivery to the byte source that touches neither the results
nor the parameters. -/
theorem rstResetsTheBlock : Obligations.RstResetsTheBlock := by
  intro offer ev s
  refine ⟨_, exec_rst offer ev s, ?_⟩
  rw [State.resetBlock_block, State.resetBlock_log, State.deliver_log, State.resetBlock_cfg, State.deliver_cfg]
  exact ⟨rfl, rfl, rfl, fun i => ⟨Memory.read_nil i, Memory.read_nil i⟩, rfl, rfl⟩

/-- A byte of `buf` that nothing has written reads as the free value of the last reset (log 3). -/
theorem State.bufByte_of_unwritten {s : State} {i : Nat} (h : s.block.buf.read i = none) :
    s.bufByte i = Config.unwrittenBuf s.resets i := by
  rw [State.bufByte, Block.bufByte, h]

/-- A byte of `FRAME` that no capture has written reads as the free value of the last reset (log 4). -/
theorem State.frameByte_of_unwritten {s : State} {i : Nat} (h : s.block.frame.read i = none) :
    s.frameByte i = Config.unwrittenFrame s.resets i := by
  rw [State.frameByte, Block.frameByte, h]

/-- Settles O10: nothing is listed after the reset, which counts as a new one, and the offered byte goes where
`State.deliver` puts it. -/
theorem rstLeavesFreeBytesAndHoldsTheOfferedByte : Obligations.RstLeavesFreeBytesAndHoldsTheOfferedByte := by
  intro offer ev s
  have hresets : (s.deliver offer.toList).resetBlock.resets = s.resets + 1 := by simp
  refine ⟨_, exec_rst offer ev s, fun i => ⟨?_, ?_⟩, fun hserial => ?_, fun hstub => ?_, ?_⟩
  · rw [State.bufByte_of_unwritten (by simp), hresets]
  · rw [State.frameByte_of_unwritten (by simp), hresets]
  · rw [State.resetBlock_source, State.deliver_serial hserial]
  · rw [State.resetBlock_source, State.deliver_altStub hstub]
  · rw [State.resetBlock_pending, State.deliver_pending]

/-! ### The first results after an RST -/

/-- Bytes before the first START, received outside a frame, leave no trace (40_receive.md R60). -/
theorem runOps_rxbs_outside_frame {s : State} (hs : s.Receptive) (hout : s.block.inFrame = false) {bs : List Byte}
    (hbs : START ∉ bs) : runOps (bs.map .rxb) s = .next s := by
  induction bs with
  | nil => rfl
  | cons b bs ih =>
    obtain ⟨hb, hrest⟩ := not_or.mp (List.mem_cons.not.mp hbs)
    have hdrop : exec (.rxb b) s = .next s := bytesOutsideAFrameAreDropped _ b s rfl hs hout (Ne.symm hb)
    rw [List.map_cons, runOps_cons_of_next hdrop, ih hrest]

/-- Settles O11: a reset block has fewer than fourteen bytes, is outside a frame and has `FVALID = 0`, which decide the
EVALs, the dropped bytes and the XTR. -/
theorem firstResultsAfterRst : Obligations.FirstResultsAfterRst := by
  intro offer ev s t ht
  have hblock := block_of_exec_rst ht
  have hshort : t.block.cursor < 14 := by simp [hblock]
  have hinvalid : t.block.fvalid = false := by rw [hblock, Block.reset_fvalid]
  have hroom := State.rxReady_of_short hshort
  obtain ⟨hxtr, _⟩ := xtrOnAnInvalidFrameIsXerr t hinvalid
  refine ⟨fun n => ⟨_, runOps_evals_of_short hshort n, rfl, rfl⟩, hxtr, ?_, hinvalid, fun i => ?_,
    fun hserial hnone bs hbs => ?_⟩
  · rw [State.rxReadyPort, hroom]; rfl
  · rw [hblock, Block.reset_frame, Memory.read_nil]
  · exact runOps_rxbs_outside_frame ⟨hserial, hnone, of_decide_eq_true hroom⟩ (by rw [hblock, Block.reset_inFrame]) hbs

end Sys2Proof.Machine
end
